-- ==== Sys2Proof/Word.lean ====
section
/-! DEFINITION. The machine word and its plainest arithmetic: R6 (a word is 16 bits, unsigned) and R9 (`trunc16`). -/

namespace Sys2Proof

/-- R6, R13: the machine's native value, a 16-bit unsigned integer; also a word address (R50). -/
abbrev Word := BitVec 16

/-- R9: `trunc16(v) = v mod 65536` of a natural number. -/
def trunc16 (n : Nat) : Word := BitVec.ofNat 16 n

/-- R9: `trunc16` of an integer, the non-negative residue also for a negative one. -/
def truncInt16 (z : Int) : Word := BitVec.ofInt 16 z

end Sys2Proof
end

