-- ==== Sys2Proof/Config.lean ====
section
/-! DEFINITION. What the spec leaves as named parameters (R7): their values and the record that holds one choice of each.
The choice this machine makes stands in Machine/Params.lean. The spec leaves no value free, so there is no free value here. -/

namespace Sys2Proof

/-- R7, R132: how far a skip step advances `PC`. -/
inductive SkipPolicy where
  | fullInstruction
  | oneWord
  | noAdvance
deriving DecidableEq, Repr

/-- R7, R153: what SUB writes to `O` when the subtraction borrows. -/
inductive SubOverflowPolicy where
  | borrowAllOnes
  | borrowOne
  | alwaysZero
deriving DecidableEq, Repr

/-- R7, R191: whether JSR resolves its operand before or after the push. -/
inductive JsrOrder where
  | resolveThenPush
  | pushThenResolve
deriving DecidableEq, Repr

/-- R7: one value for each of the four named parameters. -/
structure Params where
  skipPolicy        : SkipPolicy
  subOverflow       : SubOverflowPolicy
  divLegacyQuotient : Bool
  jsrOrder          : JsrOrder
deriving DecidableEq, Repr

end Sys2Proof
end

