-- ==== Sys2Proof/Machine/Alu.lean ====
section
/-! DEFINITION. The 16-bit results of the basic ALU instructions (42_basic_alu.md, R162): exact arithmetic, then `trunc16`.
The values they write to `O` are in Machine/Flags.lean. -/

namespace Sys2Proof.Machine

/-- R152. -/
def addResult (a b : Word) : Word := trunc16 (a.toNat + b.toNat)

/-- R153: of the exact, possibly negative, difference. -/
def subResult (a b : Word) : Word := truncInt16 ((a.toNat : Int) - (b.toNat : Int))

/-- R154. -/
def mulResult (a b : Word) : Word := trunc16 (a.toNat * b.toNat)

/-- R155, for a nonzero divisor; `legacy` is the parameter DivLegacyQuotient. -/
def divQuotient (legacy : Bool) (a b : Word) : Word :=
  if legacy then trunc16 (a.toNat / b.toNat * 0xFFFF) else trunc16 (a.toNat / b.toNat)

/-- R156. -/
def modResult (a b : Word) : Word := if b = 0 then 0 else trunc16 (a.toNat % b.toNat)

/-- R157: the count is the whole 16-bit value. -/
def shlResult (a b : Word) : Word := trunc16 (a.toNat * 2 ^ b.toNat)

/-- R158: a logical shift; the count is the whole 16-bit value. -/
def shrResult (a b : Word) : Word := trunc16 (a.toNat / 2 ^ b.toNat)

/-- R159. -/
def andResult (a b : Word) : Word := a &&& b

/-- R160. -/
def borResult (a b : Word) : Word := a ||| b

/-- R161. -/
def xorResult (a b : Word) : Word := a ^^^ b

end Sys2Proof.Machine
end

