-- ==== Sys2Proof/Machine/Flags.lean ====
section
/-! DEFINITION. The values written to the overflow register `O` (R152–R158, R162) and the conditions the IF instructions
test (R181–R184). There are no other flags or condition codes (R32). -/

namespace Sys2Proof.Machine

/-- R152: the carry, 0 or 1. -/
def addOverflow (a b : Word) : Word := trunc16 ((a.toNat + b.toNat) / 2 ^ 16)

/-- R153: the borrow value, by the parameter SubOverflowPolicy. -/
def subOverflow (p : SubOverflowPolicy) (a b : Word) : Word :=
  match p with
  | .borrowAllOnes => if a < b then 0xFFFF else 0x0000
  | .borrowOne => if a < b then 0x0001 else 0x0000
  | .alwaysZero => 0x0000

/-- R154: the high 16 bits of the product. -/
def mulOverflow (a b : Word) : Word := trunc16 (a.toNat * b.toNat / 2 ^ 16)

/-- R155, for a nonzero divisor: the 16 bits after the binary point of `a / b`. -/
def divOverflow (a b : Word) : Word := trunc16 (a.toNat * 2 ^ 16 / b.toNat)

/-- R157: the bits shifted out above bit 15. -/
def shlOverflow (a b : Word) : Word := trunc16 (a.toNat * 2 ^ b.toNat / 2 ^ 16)

/-- R158: the bits shifted out below bit 0, left-aligned. -/
def shrOverflow (a b : Word) : Word := trunc16 (a.toNat * 2 ^ 16 / 2 ^ b.toNat)

/-- R181: IFE's condition. -/
def ifeHolds (a b : Word) : Bool := a == b

/-- R182: IFN's condition. -/
def ifnHolds (a b : Word) : Bool := a != b

/-- R183: IFG's condition, unsigned. -/
def ifgHolds (a b : Word) : Bool := decide (b < a)

/-- R184: IFB's condition. -/
def ifbHolds (a b : Word) : Bool := (a &&& b) != 0

end Sys2Proof.Machine
end

