-- ==== Sys2Proof/Syntax.lean ====
section
/-! DEFINITION. The instruction set as syntax: the general registers (R21), the 64 operand codes (R73) and the 17 rows of
the opcode table (R81, R82). An instruction is what its FIRST word says (R85); its extra words are read from memory by the
operand resolver when the instruction runs (R100, R117), so the syntax does not hold them. -/

namespace Sys2Proof

/-- R21: the eight general registers, A = 0 … J = 7. -/
inductive GReg where
  | A | B | C | X | Y | Z | I | J
deriving DecidableEq, Repr

/-- R73: an operand code, one constructor per class of codes. -/
inductive Operand where
  /-- 0x00–0x07: a register. -/
  | reg (r : GReg)
  /-- 0x08–0x0F: `[register]`. -/
  | ind (r : GReg)
  /-- 0x10–0x17: `[next word + register]`, one extra word. -/
  | idx (r : GReg)
  /-- 0x18. -/
  | pop
  /-- 0x19. -/
  | peek
  /-- 0x1A. -/
  | push
  /-- 0x1B: the stack pointer itself. -/
  | sp
  /-- 0x1C: the program counter itself. -/
  | pc
  /-- 0x1D: the overflow register itself. -/
  | ov
  /-- 0x1E: `[next word]`, one extra word. -/
  | memNext
  /-- 0x1F: the next word's own storage, one extra word. -/
  | next
  /-- 0x20–0x3F: the literal 0..31. -/
  | lit (v : BitVec 5)
deriving DecidableEq, Repr

/-- R81, R82: the instructions. `a` is operand A (the destination and first source), `b` operand B (R70). -/
inductive Instr where
  | set (a b : Operand)
  | add (a b : Operand)
  | sub (a b : Operand)
  | mul (a b : Operand)
  | div (a b : Operand)
  | mod (a b : Operand)
  | shl (a b : Operand)
  | shr (a b : Operand)
  | and (a b : Operand)
  | bor (a b : Operand)
  | xor (a b : Operand)
  | ife (a b : Operand)
  | ifn (a b : Operand)
  | ifg (a b : Operand)
  | ifb (a b : Operand)
  | jsr (a : Operand)
  /-- R82, R192: an extended word whose opcode `ext` is not 0x01; its operand field `a` is carried and never resolved. -/
  | undefExt (ext : BitVec 6) (a : Operand)
deriving DecidableEq, Repr

end Sys2Proof
end

