-- ==== Sys2Proof/Machine/State.lean ====
section
/-! DEFINITION. The whole architectural state (R20), why a step can stop, and the state after initialization (R36, R230). -/

namespace Sys2Proof.Machine

/-- R20, R21: the general registers A, B, C, X, Y, Z, I, J, each 16 bits. -/
structure GRegs where
  a : Word
  b : Word
  c : Word
  x : Word
  y : Word
  z : Word
  i : Word
  j : Word
deriving DecidableEq, Repr

/-- R20, R50: word memory, as the (word address, word) pairs of the words that differ from what an unlisted address reads
as, addresses strictly rising (`Memory.wf` in Machine/Ops.lean). R50: an address names a word; there is no smaller unit. -/
abbrev Memory := List (Nat × Word)

/-- R20: the Machine, "the sole stateful entity". -/
structure State where
  /-- `x[0..7]` (R21, R22). -/
  regs   : GRegs
  /-- `SP` (R27). -/
  sp     : Word
  /-- `PC` (R23). -/
  pc     : Word
  /-- `O` (R29). -/
  o      : Word
  /-- `skip`, the skipNext flag (R30). -/
  skip   : Bool
  /-- `halted` (R31). -/
  halted : Bool
  /-- `mem[0..65535]` (R50). -/
  mem    : Memory
deriving DecidableEq, Repr

/-- Why the machine stops. No instruction raises one. -/
inductive Fault where
  /-- Raised by `step` alone, when the machine is already halted: R131 enables no step there and the state is final. Safe:
  the model stops where the hardware takes no step. -/
  | halted
deriving DecidableEq, Repr

/-- Why an instruction has no meaning. Every instruction has one, so no step answers it. -/
inductive Refusal where
  /-- Raised by `exec` for an instruction without a meaning in the model. Safe. No arm of `exec` uses it. -/
  | notModelled (mnemonic : String)
deriving DecidableEq, Repr

/-- R36: `x[0..7]` after initialization. -/
def GRegs.reset : GRegs := ⟨0, 0, 0, 0, 0, 0, 0, 0⟩

/-- R36, R230: the state that `initialize` leaves. Memory lists nothing: every word is 0x0000. -/
def State.reset : State where
  regs   := GRegs.reset
  sp     := 0xFFFF
  pc     := 0x0000
  o      := 0x0000
  skip   := false
  halted := false
  mem    := []

end Sys2Proof.Machine
end

