-- ==== Sys2Proof/Machine/Ops.lean ====
section
/-! DEFINITION. The named operations over memory and registers, the stack push, and the one fatal event. -/

namespace Sys2Proof.Machine

/-! ### Memory (R50, R54, R56) -/

/-- R36: what an address that no write has touched reads as. -/
def Memory.unlisted : Word := 0x0000

/-- The word listed for address `a`, or the unlisted word. -/
def Memory.lookup (m : Memory) (a : Nat) : Word :=
  match m with
  | [] => Memory.unlisted
  | c :: m' => if c.1 = a then c.2 else Memory.lookup m' a

/-- The memory without its entries for address `a`. -/
def Memory.erase (m : Memory) (a : Nat) : Memory :=
  match m with
  | [] => []
  | c :: m' => if c.1 = a then Memory.erase m' a else c :: Memory.erase m' a

/-- The memory with an entry put before the first higher address. -/
def Memory.insert (m : Memory) (a : Nat) (v : Word) : Memory :=
  match m with
  | [] => [(a, v)]
  | c :: m' => if a < c.1 then (a, v) :: c :: m' else c :: Memory.insert m' a v

/-- R54: `MemRead(addr, 1)`. -/
def Memory.read (m : Memory) (a : Word) : Word := Memory.lookup m a.toNat

/-- R54, R56: `MemWrite(addr, 1, v)`; exactly the word addressed changes. -/
def Memory.write (m : Memory) (a v : Word) : Memory :=
  if v = Memory.unlisted then Memory.erase m a.toNat
  else Memory.insert (Memory.erase m a.toNat) a.toNat v

/-- The canonical form from address `lo` on: addresses strictly rising and inside the 65536 words of R50, and no entry equal
to what an unlisted address reads as. -/
def Memory.wfFrom (lo : Nat) (m : Memory) : Bool :=
  match m with
  | [] => true
  | c :: m' => decide (lo ≤ c.1) && decide (c.1 < 65536) && c.2 != Memory.unlisted && Memory.wfFrom (c.1 + 1) m'

/-- The canonical form of memory. -/
def Memory.wf (m : Memory) : Bool := Memory.wfFrom 0 m

/-! ### General registers (R21, R22) -/

/-- R10: `x[i]`. -/
def GRegs.get (g : GRegs) (r : GReg) : Word :=
  match r with
  | .A => g.a
  | .B => g.b
  | .C => g.c
  | .X => g.x
  | .Y => g.y
  | .Z => g.z
  | .I => g.i
  | .J => g.j

/-- R10: `x[i] <- v`. No register is hardwired (R22). -/
def GRegs.set (g : GRegs) (r : GReg) (v : Word) : GRegs :=
  match r with
  | .A => { g with a := v }
  | .B => { g with b := v }
  | .C => { g with c := v }
  | .X => { g with x := v }
  | .Y => { g with y := v }
  | .Z => { g with z := v }
  | .I => { g with i := v }
  | .J => { g with j := v }

/-! ### The state's accessors (R10) -/

/-- `x[i]`. -/
def State.reg (s : State) (r : GReg) : Word := s.regs.get r

/-- `x[i] <- v`. -/
def State.setReg (s : State) (r : GReg) (v : Word) : State := { s with regs := s.regs.set r v }

/-- `SP <- v`. -/
def State.setSp (s : State) (v : Word) : State := { s with sp := v }

/-- `PC <- v`. -/
def State.setPc (s : State) (v : Word) : State := { s with pc := v }

/-- `O <- v`. -/
def State.setO (s : State) (v : Word) : State := { s with o := v }

/-- `skip <- b`. -/
def State.setSkip (s : State) (b : Bool) : State := { s with skip := b }

/-- `halted <- b`. -/
def State.setHalted (s : State) (b : Bool) : State := { s with halted := b }

/-- `MemRead(addr, 1)`. -/
def State.memRead (s : State) (a : Word) : Word := Memory.read s.mem a

/-- `MemWrite(addr, 1, v)`. -/
def State.memWrite (s : State) (a v : Word) : State := { s with mem := Memory.write s.mem a v }

/-- Consecutive words from address `a` on; addresses wrap (R51). -/
def State.storeWords (s : State) (a : Word) (ws : List Word) : State :=
  match ws with
  | [] => s
  | w :: ws' => State.storeWords (s.memWrite a w) (a + 1) ws'

/-! ### Shared operations -/

/-- R117, R134: take the word at `PC` and advance `PC`; after 0xFFFF comes 0x0000 (R24). -/
def nextWord (s : State) : Word × State := (s.memRead s.pc, s.setPc (s.pc + 1))

/-- R27, R191: decrement `SP`, then store at the new `SP`. -/
def push (v : Word) (s : State) : State :=
  let s' := s.setSp (s.sp - 1)
  s'.memWrite s'.sp v

/-- R200: `raise Halt(w)`, the only fatal event. R207: there is no trap entry, so nothing is saved and nothing else changes;
R208: there is no return from it. -/
def raiseHalt (s : State) : State := s.setHalted true

end Sys2Proof.Machine
end

