-- ==== Sys2Proof/Machine/Operands.lean ====
section
/-! DEFINITION. The operand resolver (40_operand_resolver.md): what each operand code resolves to, and how a slot is read
and written. -/

namespace Sys2Proof.Machine

/-- R11: the result of operand resolution. -/
inductive Slot where
  | reg (r : GReg)
  | mem (a : Word)
  | sp
  | pc
  | ov
  | lit (v : BitVec 5)
deriving DecidableEq, Repr

/-- R100–R112: `resolve(c)`, with the state it leaves; only `PC` and `SP` can change. -/
def resolve (o : Operand) (s : State) : Slot × State :=
  match o with
  | .reg r => (.reg r, s)
  | .ind r => (.mem (s.reg r), s)
  | .idx r => let n := nextWord s; (.mem (n.2.reg r + n.1), n.2)
  | .pop => (.mem s.sp, s.setSp (s.sp + 1))
  | .peek => (.mem s.sp, s)
  | .push => let s' := s.setSp (s.sp - 1); (.mem s'.sp, s')
  | .sp => (.sp, s)
  | .pc => (.pc, s)
  | .ov => (.ov, s)
  | .memNext => let n := nextWord s; (.mem n.1, n.2)
  | .next => (.mem s.pc, s.setPc (s.pc + 1))
  | .lit v => (.lit v, s)

/-- R118: `read(slot)`. -/
def readSlot (d : Slot) (s : State) : Word :=
  match d with
  | .reg r => s.reg r
  | .mem a => s.memRead a
  | .sp => s.sp
  | .pc => s.pc
  | .ov => s.o
  | .lit v => trunc16 v.toNat

/-- R119: `write(slot, v)`; R121: a write to a literal is discarded. -/
def writeSlot (d : Slot) (v : Word) (s : State) : State :=
  match d with
  | .reg r => s.setReg r v
  | .mem a => s.memWrite a v
  | .sp => s.setSp v
  | .pc => s.setPc v
  | .ov => s.setO v
  | .lit _ => s

/-- What a basic instruction has in hand after R137: both slots, both values, and the state that resolution left. -/
structure BasicOperands where
  slotA : Slot
  slotB : Slot
  a     : Word
  b     : Word
  state : State
deriving DecidableEq, Repr

/-- R113, R120, R137: resolve operand A, then operand B; then read A's slot and B's slot, once. -/
def basicOperands (oa ob : Operand) (s : State) : BasicOperands :=
  let ra := resolve oa s
  let rb := resolve ob ra.2
  { slotA := ra.1, slotB := rb.1, a := readSlot ra.1 rb.2, b := readSlot rb.1 rb.2, state := rb.2 }

/-- R150: the destination write of an instruction that leaves `O` alone. -/
def writeResult (x : BasicOperands) (r : Word) : State := writeSlot x.slotA r x.state

/-- R122: destination, then `O`. -/
def writeResultThenO (x : BasicOperands) (r ov : Word) : State := (writeSlot x.slotA r x.state).setO ov

/-- R122: `O`, then destination (DIV with a nonzero divisor). -/
def writeOThenResult (x : BasicOperands) (r ov : Word) : State := writeSlot x.slotA r (x.state.setO ov)

end Sys2Proof.Machine
end

