-- ==== Sys2Proof/Machine/Params.lean ====
section
/-! DEFINITION. The values this machine takes for the parameters of R7: the spec's defaults (UNVERIFIED: log entry 3). -/

namespace Sys2Proof.Machine

/-- R7: every parameter at its default. -/
def params : Params where
  skipPolicy        := .fullInstruction
  subOverflow       := .borrowAllOnes
  divLegacyQuotient := false
  jsrOrder          := .resolveThenPush

end Sys2Proof.Machine
end

