-- ==== Sys2Proof/Machine/BasicAlu.lean ====
section
/-! DEFINITION. SET, ADD, SUB, MUL, DIV, MOD, SHL, SHR, AND, BOR and XOR (42_basic_alu.md). The state a meaning is given
has `PC` already past the instruction's first word (R134). -/

namespace Sys2Proof.Machine

/-- R151. -/
def execSet (oa ob : Operand) (s : State) : Host.Outcome State Fault Refusal :=
  let x := basicOperands oa ob s
  .next (writeResult x x.b)

/-- R152. -/
def execAdd (oa ob : Operand) (s : State) : Host.Outcome State Fault Refusal :=
  let x := basicOperands oa ob s
  .next (writeResultThenO x (addResult x.a x.b) (addOverflow x.a x.b))

/-- R153 under a given SubOverflowPolicy. -/
def execSubWith (p : SubOverflowPolicy) (oa ob : Operand) (s : State) : Host.Outcome State Fault Refusal :=
  let x := basicOperands oa ob s
  .next (writeResultThenO x (subResult x.a x.b) (subOverflow p x.a x.b))

/-- R153. -/
def execSub (oa ob : Operand) (s : State) : Host.Outcome State Fault Refusal :=
  execSubWith params.subOverflow oa ob s

/-- R154. -/
def execMul (oa ob : Operand) (s : State) : Host.Outcome State Fault Refusal :=
  let x := basicOperands oa ob s
  .next (writeResultThenO x (mulResult x.a x.b) (mulOverflow x.a x.b))

/-- R155 under a given DivLegacyQuotient. R202: division by zero is a result, not an event. -/
def execDivWith (legacy : Bool) (oa ob : Operand) (s : State) : Host.Outcome State Fault Refusal :=
  let x := basicOperands oa ob s
  .next (if x.b = 0 then writeResultThenO x 0x0000 0x0000
    else writeOThenResult x (divQuotient legacy x.a x.b) (divOverflow x.a x.b))

/-- R155. -/
def execDiv (oa ob : Operand) (s : State) : Host.Outcome State Fault Refusal :=
  execDivWith params.divLegacyQuotient oa ob s

/-- R156: `O` is left unchanged. -/
def execMod (oa ob : Operand) (s : State) : Host.Outcome State Fault Refusal :=
  let x := basicOperands oa ob s
  .next (writeResult x (modResult x.a x.b))

/-- R157. -/
def execShl (oa ob : Operand) (s : State) : Host.Outcome State Fault Refusal :=
  let x := basicOperands oa ob s
  .next (writeResultThenO x (shlResult x.a x.b) (shlOverflow x.a x.b))

/-- R158. -/
def execShr (oa ob : Operand) (s : State) : Host.Outcome State Fault Refusal :=
  let x := basicOperands oa ob s
  .next (writeResultThenO x (shrResult x.a x.b) (shrOverflow x.a x.b))

/-- R159. -/
def execAnd (oa ob : Operand) (s : State) : Host.Outcome State Fault Refusal :=
  let x := basicOperands oa ob s
  .next (writeResult x (andResult x.a x.b))

/-- R160. -/
def execBor (oa ob : Operand) (s : State) : Host.Outcome State Fault Refusal :=
  let x := basicOperands oa ob s
  .next (writeResult x (borResult x.a x.b))

/-- R161. -/
def execXor (oa ob : Operand) (s : State) : Host.Outcome State Fault Refusal :=
  let x := basicOperands oa ob s
  .next (writeResult x (xorResult x.a x.b))

end Sys2Proof.Machine
end

