-- ==== Sys2Proof/Machine/Conditionals.lean ====
section
/-! DEFINITION. IFE, IFN, IFG and IFB (43_conditionals.md). -/

namespace Sys2Proof.Machine

/-- R180: the operands' side effects stand; `skip` is set when the condition fails, and nothing else changes. -/
def skipUnless (holds : Word → Word → Bool) (oa ob : Operand) (s : State) : State :=
  let x := basicOperands oa ob s
  if holds x.a x.b then x.state else x.state.setSkip true

/-- R181. -/
def execIfe (oa ob : Operand) (s : State) : Host.Outcome State Fault Refusal :=
  .next (skipUnless ifeHolds oa ob s)

/-- R182. -/
def execIfn (oa ob : Operand) (s : State) : Host.Outcome State Fault Refusal :=
  .next (skipUnless ifnHolds oa ob s)

/-- R183. -/
def execIfg (oa ob : Operand) (s : State) : Host.Outcome State Fault Refusal :=
  .next (skipUnless ifgHolds oa ob s)

/-- R184. -/
def execIfb (oa ob : Operand) (s : State) : Host.Outcome State Fault Refusal :=
  .next (skipUnless ifbHolds oa ob s)

end Sys2Proof.Machine
end

