-- ==== Sys2Proof/Machine/Extended.lean ====
section
/-! DEFINITION. JSR and the undefined extended opcodes (44_extended.md). -/

namespace Sys2Proof.Machine

/-- R191: resolve and read the operand, push `PC`, jump. -/
def jsrResolveThenPush (oa : Operand) (s : State) : State :=
  let ra := resolve oa s
  let target := readSlot ra.1 ra.2
  (push ra.2.pc ra.2).setPc target

/-- R191, the alternative order: push `PC` as it is before any extra word is consumed, then resolve, read and jump. -/
def jsrPushThenResolve (oa : Operand) (s : State) : State :=
  let ra := resolve oa (push s.pc s)
  ra.2.setPc (readSlot ra.1 ra.2)

/-- R191 under a given JsrOrder. -/
def execJsrWith (order : JsrOrder) (oa : Operand) (s : State) : Host.Outcome State Fault Refusal :=
  match order with
  | .resolveThenPush => .next (jsrResolveThenPush oa s)
  | .pushThenResolve => .next (jsrPushThenResolve oa s)

/-- R191. -/
def execJsr (oa : Operand) (s : State) : Host.Outcome State Fault Refusal :=
  execJsrWith params.jsrOrder oa s

/-- R192: the Halt event; the operand is not resolved, whatever `ext` and the operand field are. -/
def execUndefExt (_ext : BitVec 6) (_oa : Operand) (s : State) : Host.Outcome State Fault Refusal :=
  .next (raiseHalt s)

end Sys2Proof.Machine
end

