-- ==== Sys2Proof/WellFormed.lean ====
section
/-! DEFINITION. Which terms of `Instr` stand for instruction words. The operand types admit exactly the 64 codes of R73,
so one check is left: an undefined extended opcode is not JSR's (R82). -/

namespace Sys2Proof

/-- R82, R83: the extended opcodes that are undefined, every value but JSR's 0x01. -/
def undefinedExt (ext : BitVec 6) : Bool := ext != 1#6

/-- The term stands for an instruction word. -/
def Instr.wellFormed (i : Instr) : Bool :=
  match i with
  | .set _ _ => true
  | .add _ _ => true
  | .sub _ _ => true
  | .mul _ _ => true
  | .div _ _ => true
  | .mod _ _ => true
  | .shl _ _ => true
  | .shr _ _ => true
  | .and _ _ => true
  | .bor _ _ => true
  | .xor _ _ => true
  | .ife _ _ => true
  | .ifn _ _ => true
  | .ifg _ _ => true
  | .ifb _ _ => true
  | .jsr _ => true
  | .undefExt ext _ => undefinedExt ext

end Sys2Proof
end

