-- ==== Sys2Proof/Decode.lean ====
section
/-! DEFINITION. The decoder, total on every first word (R72, R85), the instruction length (R74, R76), and after them the
encoder, written from the same tables (R70, R71, R73, R81, R82). Instruction words are 16-bit words; the hardware has no
smaller unit (R50, R53). -/

namespace Sys2Proof

/-! ### Fields of a first word (R70, R71, R135) -/

/-- R70: `w[3:0]`, the basic opcode; zero marks the extended format (R71). -/
def opField (w : Word) : BitVec 4 := w.extractLsb' 0 4

/-- R70: `w[9:4]`, operand A's code in the basic format; the extended opcode in the extended format (R71). -/
def midField (w : Word) : BitVec 6 := w.extractLsb' 4 6

/-- R70: `w[15:10]`, operand B's code in the basic format; operand A's code in the extended format (R71). -/
def highField (w : Word) : BitVec 6 := w.extractLsb' 10 6

/-! ### Operand codes (R73) -/

/-- R21: the register whose index is the low three bits of an operand code. -/
def decodeReg (c : BitVec 3) : GReg :=
  match c.toNat with
  | 0 => .A
  | 1 => .B
  | 2 => .C
  | 3 => .X
  | 4 => .Y
  | 5 => .Z
  | 6 => .I
  | _ => .J

/-- R73: codes 0x18–0x1F, by their low three bits. -/
def decodeSpecial (c : BitVec 3) : Operand :=
  match c.toNat with
  | 0 => .pop
  | 1 => .peek
  | 2 => .push
  | 3 => .sp
  | 4 => .pc
  | 5 => .ov
  | 6 => .memNext
  | _ => .next

/-- R73: the meaning of each of the 64 operand codes. -/
def decodeOperand (c : BitVec 6) : Operand :=
  if c < 0x08#6 then .reg (decodeReg (c.extractLsb' 0 3))
  else if c < 0x10#6 then .ind (decodeReg (c.extractLsb' 0 3))
  else if c < 0x18#6 then .idx (decodeReg (c.extractLsb' 0 3))
  else if c < 0x20#6 then decodeSpecial (c.extractLsb' 0 3)
  else .lit (c.extractLsb' 0 5)

/-! ### Instructions -/

/-- R71, R82: an extended word. -/
def decodeExtended (ext : BitVec 6) (a : Operand) : Instr :=
  if ext = 0x01#6 then .jsr a else .undefExt ext a

/-- R85: the decoder, total on all 65536 first words; R81 gives the opcode numbers. -/
def decode (w : Word) : Instr :=
  let mid := decodeOperand (midField w)
  let high := decodeOperand (highField w)
  match (opField w).toNat with
  | 0x0 => decodeExtended (midField w) high
  | 0x1 => .set mid high
  | 0x2 => .add mid high
  | 0x3 => .sub mid high
  | 0x4 => .mul mid high
  | 0x5 => .div mid high
  | 0x6 => .mod mid high
  | 0x7 => .shl mid high
  | 0x8 => .shr mid high
  | 0x9 => .and mid high
  | 0xA => .bor mid high
  | 0xB => .xor mid high
  | 0xC => .ife mid high
  | 0xD => .ifn mid high
  | 0xE => .ifg mid high
  | _ => .ifb mid high

/-! ### Length (R74, R76) -/

/-- R74: how many extra words an operand code consumes. -/
def extraOfCode (c : BitVec 6) : Nat :=
  if (0x10#6 ≤ c ∧ c ≤ 0x17#6) ∨ c = 0x1E#6 ∨ c = 0x1F#6 then 1 else 0

/-- R76: the length in words, decided from the first word alone. -/
def lengthOfWord (w : Word) : Nat :=
  if opField w ≠ 0#4 then 1 + extraOfCode (midField w) + extraOfCode (highField w)
  else if midField w = 0x01#6 then 1 + extraOfCode (highField w)
  else 1

/-- R74 on operands as syntax. -/
def Operand.extra (o : Operand) : Nat :=
  match o with
  | .reg _ => 0
  | .ind _ => 0
  | .idx _ => 1
  | .pop => 0
  | .peek => 0
  | .push => 0
  | .sp => 0
  | .pc => 0
  | .ov => 0
  | .memNext => 1
  | .next => 1
  | .lit _ => 0

/-- R76: how many extra words follow the instruction's first word. -/
def Instr.extraWords (i : Instr) : Nat :=
  match i with
  | .set a b => a.extra + b.extra
  | .add a b => a.extra + b.extra
  | .sub a b => a.extra + b.extra
  | .mul a b => a.extra + b.extra
  | .div a b => a.extra + b.extra
  | .mod a b => a.extra + b.extra
  | .shl a b => a.extra + b.extra
  | .shr a b => a.extra + b.extra
  | .and a b => a.extra + b.extra
  | .bor a b => a.extra + b.extra
  | .xor a b => a.extra + b.extra
  | .ife a b => a.extra + b.extra
  | .ifn a b => a.extra + b.extra
  | .ifg a b => a.extra + b.extra
  | .ifb a b => a.extra + b.extra
  | .jsr a => a.extra
  | .undefExt _ _ => 0

/-- R76 on instructions as syntax. -/
def Instr.length (i : Instr) : Nat := 1 + i.extraWords

/-! ### Decoding a run of words -/

/-- Why a finite run of words is no instruction (DESIGN CHOICE: log entry 14). The machine itself never meets one: its memory
has no end (R51), and `decode` refuses no first word (R85). -/
inductive DecodeReject where
  /-- There are fewer words than the instruction's length (R76). -/
  | truncated
deriving DecidableEq, Repr

/-- The instruction at the head of a run of words: it, its extra words in the order they are consumed (R75), and the words
after it. -/
def decodeWords (ws : List Word) : Except DecodeReject (Instr × List Word × List Word) :=
  match ws with
  | [] => .error .truncated
  | w :: rest =>
    let i := decode w
    if rest.length < i.extraWords then .error .truncated
    else .ok (i, rest.take i.extraWords, rest.drop i.extraWords)

/-- The longest instruction, in words (R76). -/
def maxLength : Nat := 3

/-- The words of an instruction whose bits are `w`, bit 0 the least significant bit of the first word; bits from `nbits` up
are zero; as many words as the longest instruction has (R76). -/
def tableWords (nbits w : Nat) : List Word :=
  let v := w % 2 ^ nbits
  [trunc16 v, trunc16 (v / 2 ^ 16), trunc16 (v / 2 ^ 32)]

/-- What the decoder reads from the table's word (none where it refuses). -/
def decodeTableWord (nbits w : Nat) : Option Instr :=
  match decodeWords (tableWords nbits w) with
  | .ok (i, _, _) => some i
  | .error _ => none

/-! ### The encoder -/

/-- R21: a register's index. -/
def GReg.index (r : GReg) : Nat :=
  match r with
  | .A => 0
  | .B => 1
  | .C => 2
  | .X => 3
  | .Y => 4
  | .Z => 5
  | .I => 6
  | .J => 7

/-- R73: an operand's code. -/
def encodeOperand (o : Operand) : BitVec 6 :=
  match o with
  | .reg r => BitVec.ofNat 6 (0x00 + r.index)
  | .ind r => BitVec.ofNat 6 (0x08 + r.index)
  | .idx r => BitVec.ofNat 6 (0x10 + r.index)
  | .pop => 0x18#6
  | .peek => 0x19#6
  | .push => 0x1A#6
  | .sp => 0x1B#6
  | .pc => 0x1C#6
  | .ov => 0x1D#6
  | .memNext => 0x1E#6
  | .next => 0x1F#6
  | .lit v => BitVec.ofNat 6 (0x20 + v.toNat)

/-- R70, R71: the first word with these three fields. -/
def packWord (high mid : BitVec 6) (op : BitVec 4) : Word :=
  trunc16 (high.toNat * 2 ^ 10 + mid.toNat * 2 ^ 4 + op.toNat)

/-- R70: a basic first word. -/
def encodeBasic (op : BitVec 4) (a b : Operand) : Word :=
  packWord (encodeOperand b) (encodeOperand a) op

/-- R71: an extended first word. -/
def encodeExtended (ext : BitVec 6) (a : Operand) : Word :=
  packWord (encodeOperand a) ext 0x0#4

/-- R81, R82: an instruction's first word. -/
def encodeFirst (i : Instr) : Word :=
  match i with
  | .set a b => encodeBasic 0x1#4 a b
  | .add a b => encodeBasic 0x2#4 a b
  | .sub a b => encodeBasic 0x3#4 a b
  | .mul a b => encodeBasic 0x4#4 a b
  | .div a b => encodeBasic 0x5#4 a b
  | .mod a b => encodeBasic 0x6#4 a b
  | .shl a b => encodeBasic 0x7#4 a b
  | .shr a b => encodeBasic 0x8#4 a b
  | .and a b => encodeBasic 0x9#4 a b
  | .bor a b => encodeBasic 0xA#4 a b
  | .xor a b => encodeBasic 0xB#4 a b
  | .ife a b => encodeBasic 0xC#4 a b
  | .ifn a b => encodeBasic 0xD#4 a b
  | .ifg a b => encodeBasic 0xE#4 a b
  | .ifb a b => encodeBasic 0xF#4 a b
  | .jsr a => encodeExtended 0x01#6 a
  | .undefExt ext a => encodeExtended ext a

/-- R75, R76: an instruction's words: its first word, then its extra words in the order they are consumed. -/
def encode (i : Instr) (extras : List Word) : List Word := encodeFirst i :: extras

end Sys2Proof
end

