-- ==== Sys2Proof/Machine/Fetch.lean ====
section
/-! DEFINITION. The instruction fetch (R134), the skip step (R132, R133), and where a test places the next instruction. -/

namespace Sys2Proof.Machine

/-- R134: the word at `PC`, and the state with `PC` advanced past it. -/
def fetch (s : State) : Word × State := nextWord s

/-- R132: how far a skip step over the word `w` advances `PC`. -/
def skipAdvance (p : SkipPolicy) (w : Word) : Nat :=
  match p with
  | .fullInstruction => lengthOfWord w
  | .oneWord => 1
  | .noAdvance => 0

/-- R132 under a given SkipPolicy: advance `PC`, clear `skip`, and do nothing else (R133). -/
def skipStepWith (p : SkipPolicy) (s : State) : State :=
  (s.setPc (trunc16 (s.pc.toNat + skipAdvance p (s.memRead s.pc)))).setSkip false

/-- R132. -/
def skipStep (s : State) : State := skipStepWith params.skipPolicy s

/-- The state with `ws` stored from `PC` on and no skip or halt in the way, so that the next step fetches `ws`'s first word
and runs it (R130, R131). -/
def placeAtPc (ws : List Word) (s : State) : State := ((s.storeWords s.pc ws).setSkip false).setHalted false

end Sys2Proof.Machine
end

