-- ==== Sys2Proof/Machine/Step.lean ====
section
/-! DEFINITION. One step (R130), and the placing of one instruction where the next step fetches. -/

namespace Sys2Proof.Machine

/-- R130, R206: no step while halted (R131); then the skip step (R132); otherwise fetch, decode and execute. -/
def step (s : State) : Host.Outcome State Fault Refusal :=
  if s.halted then .fault .halted
  else if s.skip then .next (skipStep s)
  else exec (decode (fetch s).1) (fetch s).2

/-- The state with the table's instruction stored at `PC` (the fetch needs `skip` and `halted` clear: R131, R132). -/
def State.withFetchWord (s : State) (nbits w : Nat) : State := placeAtPc (tableWords nbits w) s

end Sys2Proof.Machine
end

