-- ==== Sys2Proof/Machine/Interface.lean ====
section
/-! DEFINITION. The block interface at transaction level (R40–R43, R45, R65): initialize, host memory load, step request,
and the inspection output. The step itself does not use this file. -/

namespace Sys2Proof.Machine

/-- R40, R43, R45: what a host may ask of the block. -/
inductive Request where
  /-- R45: `initialize(machine)`; R230: it may be issued again between steps. -/
  | init
  /-- R43: write one word of memory, before the first step. -/
  | load (addr word : Word)
  /-- R40: one step. -/
  | step
deriving DecidableEq, Repr

/-- The block as its host sees it: the machine, and whether a step has run since initialization (R43 asks). -/
structure Block where
  machine : State
  running : Bool
deriving DecidableEq, Repr

/-- Why the block does not take a request. -/
inductive RequestRefusal where
  /-- R43: a host write after the first step is no part of the interface. -/
  | loadAfterFirstStep
  /-- A step that `exec` gives no meaning; no step of this machine is one. -/
  | step (r : Refusal)
deriving DecidableEq, Repr

/-- R45, R233: the block right after initialization. -/
def Block.initial : Block := { machine := State.reset, running := false }

/-- The block's answer to one request. R41: a halted machine accepts no step request (`Fault.halted`). -/
def serve (r : Request) (b : Block) : Host.Outcome Block Fault RequestRefusal :=
  match r with
  | .init => .next Block.initial
  | .load a w => if b.running then .refused .loadAfterFirstStep else .next { b with machine := b.machine.memWrite a w }
  | .step =>
    match step b.machine with
    | .next s => .next { machine := s, running := true }
    | .fault f => .fault f
    | .refused q => .refused (.step q)

/-- R42: the fields a host may read between steps. -/
inductive Field where
  | reg (r : GReg)
  | sp
  | pc
  | o
  | skip
  | halted
  | mem (a : Word)
deriving DecidableEq, Repr

/-- A field's value: a word or a flag. -/
inductive FieldValue where
  | word (w : Word)
  | flag (b : Bool)
deriving DecidableEq, Repr

/-- R42: the inspection output; it changes nothing. -/
def inspect (f : Field) (s : State) : FieldValue :=
  match f with
  | .reg r => .word (s.reg r)
  | .sp => .word s.sp
  | .pc => .word s.pc
  | .o => .word s.o
  | .skip => .flag s.skip
  | .halted => .flag s.halted
  | .mem a => .word (s.memRead a)

/-- R41: the halted output. -/
def haltedOutput (b : Block) : Bool := b.machine.halted

/-- R41, R141: the driving loop, which polls `halted` after each step and issues at most `fuel` steps. -/
def drive (fuel : Nat) (s : State) : State :=
  match fuel with
  | 0 => s
  | fuel' + 1 =>
    if s.halted then s
    else
      match step s with
      | .next t => drive fuel' t
      | .fault _ => s
      | .refused _ => s

end Sys2Proof.Machine
end

