-- ==== Sys2Proof/Machine/Port.lean ====
section
/-! DEFINITION. The memory port (R44): the word reads and writes of one step, in the order R60 gives. The step itself does
not use this file; the list is what the block's memory sees of it (R52). -/

namespace Sys2Proof.Machine

/-- R44: one transaction of the memory port, with the word it carries. -/
inductive Access where
  /-- `MemRead(a, 1)` returning `v`. -/
  | read (a v : Word)
  /-- `MemWrite(a, 1, v)`. -/
  | write (a v : Word)
deriving DecidableEq, Repr

/-- R60 (2): the extra-word read of an operand, if it has one. R52 counts code 0x1F among them (DEDUCED: log entry 7). -/
def extraReads (o : Operand) (s : State) : List Access :=
  if o.extra = 0 then [] else [.read s.pc (s.memRead s.pc)]

/-- R60 (4): the read of a resolved slot, if it is in memory. -/
def slotReads (d : Slot) (s : State) : List Access :=
  match d with
  | .reg _ => []
  | .mem a => [.read a (s.memRead a)]
  | .sp => []
  | .pc => []
  | .ov => []
  | .lit _ => []

/-- R60 (5): the write of a slot, if it is in memory. -/
def slotWrites (d : Slot) (v : Word) : List Access :=
  match d with
  | .reg _ => []
  | .mem a => [.write a v]
  | .sp => []
  | .pc => []
  | .ov => []
  | .lit _ => []

/-- R60 (2) to (4): what the operands of a basic instruction read. -/
def operandReads (oa ob : Operand) (s : State) : List Access :=
  let x := basicOperands oa ob s
  extraReads oa s ++ extraReads ob (resolve oa s).2 ++ slotReads x.slotA x.state ++ slotReads x.slotB x.state

/-- A basic instruction that writes the result `f a b` to operand A's slot. -/
def writingAccesses (f : Word → Word → Word) (oa ob : Operand) (s : State) : List Access :=
  let x := basicOperands oa ob s
  operandReads oa ob s ++ slotWrites x.slotA (f x.a x.b)

/-- JSR's accesses: its operand's reads, and the push (R191). -/
def jsrAccesses (order : JsrOrder) (oa : Operand) (s : State) : List Access :=
  match order with
  | .resolveThenPush =>
    let ra := resolve oa s
    extraReads oa s ++ slotReads ra.1 ra.2 ++ [.write (ra.2.sp - 1) ra.2.pc]
  | .pushThenResolve =>
    let s' := push s.pc s
    let ra := resolve oa s'
    [.write (s.sp - 1) s.pc] ++ extraReads oa s' ++ slotReads ra.1 ra.2

/-- R155's result, the divisor zero included. -/
def divResult (legacy : Bool) (a b : Word) : Word := if b = 0 then 0x0000 else divQuotient legacy a b

/-- The accesses of an instruction after its fetch. -/
def instrAccesses (i : Instr) (s : State) : List Access :=
  match i with
  | .set a b => writingAccesses (fun _ y => y) a b s
  | .add a b => writingAccesses addResult a b s
  | .sub a b => writingAccesses subResult a b s
  | .mul a b => writingAccesses mulResult a b s
  | .div a b => writingAccesses (divResult params.divLegacyQuotient) a b s
  | .mod a b => writingAccesses modResult a b s
  | .shl a b => writingAccesses shlResult a b s
  | .shr a b => writingAccesses shrResult a b s
  | .and a b => writingAccesses andResult a b s
  | .bor a b => writingAccesses borResult a b s
  | .xor a b => writingAccesses xorResult a b s
  | .ife a b => operandReads a b s
  | .ifn a b => operandReads a b s
  | .ifg a b => operandReads a b s
  | .ifb a b => operandReads a b s
  | .jsr a => jsrAccesses params.jsrOrder a s
  | .undefExt _ _ => []

/-- R60 (1): the fetch of the instruction word. -/
def fetchAccess (s : State) : Access := .read s.pc (s.memRead s.pc)

/-- R132: a skip step fetches and discards one word, unless the policy fetches none. -/
def skipAccesses (p : SkipPolicy) (s : State) : List Access :=
  match p with
  | .fullInstruction => [fetchAccess s]
  | .oneWord => [fetchAccess s]
  | .noAdvance => []

/-- R52, R60: every memory access of one step, in order. -/
def portTrace (s : State) : List Access :=
  if s.halted then []
  else if s.skip then skipAccesses params.skipPolicy s
  else fetchAccess s :: instrAccesses (decode (fetch s).1) (fetch s).2

/-- What a run of port transactions leaves in memory. -/
def replay (tr : List Access) (m : Memory) : Memory :=
  match tr with
  | [] => m
  | .read _ _ :: tr' => replay tr' m
  | .write a v :: tr' => replay tr' (Memory.write m a v)

end Sys2Proof.Machine
end

