-- ==== Sys2Proof/Safety.lean ====
section
/-! DEFINITION. The terms claims are stated in: the invariant of every step, reachability, and what an instruction's frame
says. -/

namespace Sys2Proof.Safety

open Sys2Proof.Machine

/-- The word at `PC`. -/
def wordAtPc (s : State) : Word := s.memRead s.pc

/-- The word is an undefined extended word (R83). -/
def haltingWord (w : Word) : Bool :=
  match decode w with
  | .set _ _ => false
  | .add _ _ => false
  | .sub _ _ => false
  | .mul _ _ => false
  | .div _ _ => false
  | .mod _ _ => false
  | .shl _ _ => false
  | .shr _ _ => false
  | .and _ _ => false
  | .bor _ _ => false
  | .xor _ _ => false
  | .ife _ _ => false
  | .ifn _ _ => false
  | .ifg _ _ => false
  | .ifb _ _ => false
  | .jsr _ => false
  | .undefExt _ _ => true

/-- What every step keeps: memory in canonical form (R50); a halted machine is not also skipping, and the word just before
`PC` is the undefined extended word that halted it (R200, R206). -/
structure Inv (s : State) : Prop where
  memory : Memory.wf s.mem = true
  halted_not_skipping : s.halted = true → s.skip = false
  halted_at_halting_word : s.halted = true → haltingWord (s.memRead (s.pc - 1)) = true

/-- `t` is reached from `s` by steps. -/
inductive Reaches (s : State) : State → Prop where
  | refl : Reaches s s
  | tail {t u : State} (h : Reaches s t) (hstep : step t = .next u) : Reaches s u

/-- The state an outcome goes on in. -/
def nextState? (o : Host.Outcome State Fault Refusal) : Option State :=
  match o with
  | .next s => some s
  | .fault _ => none
  | .refused _ => none

/-- R27, R28: how much resolving an operand moves `SP`. -/
def spMove (o : Operand) : Word :=
  match o with
  | .pop => 1
  | .push => -1
  | .reg _ => 0
  | .ind _ => 0
  | .idx _ => 0
  | .peek => 0
  | .sp => 0
  | .pc => 0
  | .ov => 0
  | .memNext => 0
  | .next => 0
  | .lit _ => 0

/-- R24: how much resolving an operand moves `PC`. -/
def pcMove (o : Operand) : Word := BitVec.ofNat 16 o.extra

/-- What every basic instruction with operands `oa` and `ob` leaves alone, from the state `s` after its fetch to `t`, when
its destination is the slot `d` (`none`: it has no destination): every register and every word of memory but `d`, except
the moves of `PC` and `SP` that resolving the operands makes. `O` and `skip` are not spoken of. -/
structure Frame (oa ob : Operand) (d : Option Slot) (s t : State) : Prop where
  reg : ∀ r, d ≠ some (.reg r) → t.reg r = s.reg r
  sp : d ≠ some .sp → t.sp = s.sp + spMove oa + spMove ob
  pc : d ≠ some .pc → t.pc = s.pc + pcMove oa + pcMove ob
  mem : ∀ a, d ≠ some (.mem a) → t.memRead a = s.memRead a
  halted : t.halted = s.halted

/-- The slot can be written: it is not a literal (R121). -/
def writable (d : Slot) : Bool :=
  match d with
  | .reg _ => true
  | .mem _ => true
  | .sp => true
  | .pc => true
  | .ov => true
  | .lit _ => false

/-- R150: a basic instruction with operands `oa` and `ob` took the state `s` after its fetch to `t` by writing the result
`r` to operand A's slot, which resolution gives as `(resolve oa s).1`; a literal slot takes nothing (R121). -/
structure WritesResult (oa ob : Operand) (s t : State) (r : Word) : Prop where
  result : writable (resolve oa s).1 = true → readSlot (resolve oa s).1 t = r
  o : (resolve oa s).1 ≠ .ov → t.o = s.o
  skip : t.skip = s.skip
  frame : Frame oa ob (some (resolve oa s).1) s t

/-- R122, R150: the same, with the overflow value `ov` written to `O` after the destination. -/
structure WritesResultThenOverflow (oa ob : Operand) (s t : State) (r ov : Word) : Prop where
  result : writable (resolve oa s).1 = true → (resolve oa s).1 ≠ .ov → readSlot (resolve oa s).1 t = r
  o : t.o = ov
  skip : t.skip = s.skip
  frame : Frame oa ob (some (resolve oa s).1) s t

/-- R122, R150: the same, with the overflow value `ov` written to `O` before the destination. -/
structure WritesOverflowThenResult (oa ob : Operand) (s t : State) (r ov : Word) : Prop where
  result : writable (resolve oa s).1 = true → readSlot (resolve oa s).1 t = r
  o : (resolve oa s).1 ≠ .ov → t.o = ov
  skip : t.skip = s.skip
  frame : Frame oa ob (some (resolve oa s).1) s t

/-- R180: an IF with operands `oa` and `ob` took the state `s` after its fetch to `t`, its condition failing when `fails`
holds: it has no destination, and `skip` is set exactly then (it stays set where it was set). -/
structure SkipsWhen (fails : Prop) (oa ob : Operand) (s t : State) : Prop where
  skip : t.skip = true ↔ s.skip = true ∨ fails
  o : t.o = s.o
  frame : Frame oa ob none s t

/-- The operand whose slot an instruction writes its result to (R150); the IF instructions (R180), JSR and the undefined
extended words have none. -/
def destination (i : Instr) : Option Operand :=
  match i with
  | .set a _ => some a
  | .add a _ => some a
  | .sub a _ => some a
  | .mul a _ => some a
  | .div a _ => some a
  | .mod a _ => some a
  | .shl a _ => some a
  | .shr a _ => some a
  | .and a _ => some a
  | .bor a _ => some a
  | .xor a _ => some a
  | .ife _ _ => none
  | .ifn _ _ => none
  | .ifg _ _ => none
  | .ifb _ _ => none
  | .jsr _ => none
  | .undefExt _ _ => none

/-- The operands an instruction resolves (R113, R115). -/
def resolvedOperands (i : Instr) : List Operand :=
  match i with
  | .set a b => [a, b]
  | .add a b => [a, b]
  | .sub a b => [a, b]
  | .mul a b => [a, b]
  | .div a b => [a, b]
  | .mod a b => [a, b]
  | .shl a b => [a, b]
  | .shr a b => [a, b]
  | .and a b => [a, b]
  | .bor a b => [a, b]
  | .xor a b => [a, b]
  | .ife a b => [a, b]
  | .ifn a b => [a, b]
  | .ifg a b => [a, b]
  | .ifb a b => [a, b]
  | .jsr a => [a]
  | .undefExt _ _ => []

/-- R29: the instructions that write `O` as their overflow register. -/
def writesOverflow (i : Instr) : Bool :=
  match i with
  | .set _ _ => false
  | .add _ _ => true
  | .sub _ _ => true
  | .mul _ _ => true
  | .div _ _ => true
  | .mod _ _ => false
  | .shl _ _ => true
  | .shr _ _ => true
  | .and _ _ => false
  | .bor _ _ => false
  | .xor _ _ => false
  | .ife _ _ => false
  | .ifn _ _ => false
  | .ifg _ _ => false
  | .ifb _ _ => false
  | .jsr _ => false
  | .undefExt _ _ => false

/-- The instruction is an IF, with its condition and operands (R180). -/
def condition (i : Instr) : Option ((Word → Word → Bool) × Operand × Operand) :=
  match i with
  | .set _ _ => none
  | .add _ _ => none
  | .sub _ _ => none
  | .mul _ _ => none
  | .div _ _ => none
  | .mod _ _ => none
  | .shl _ _ => none
  | .shr _ _ => none
  | .and _ _ => none
  | .bor _ _ => none
  | .xor _ _ => none
  | .ife a b => some (ifeHolds, a, b)
  | .ifn a b => some (ifnHolds, a, b)
  | .ifg a b => some (ifgHolds, a, b)
  | .ifb a b => some (ifbHolds, a, b)
  | .jsr _ => none
  | .undefExt _ _ => none

/-- The instruction is a JSR. -/
def isJsr (i : Instr) : Bool :=
  match i with
  | .set _ _ => false
  | .add _ _ => false
  | .sub _ _ => false
  | .mul _ _ => false
  | .div _ _ => false
  | .mod _ _ => false
  | .shl _ _ => false
  | .shr _ _ => false
  | .and _ _ => false
  | .bor _ _ => false
  | .xor _ _ => false
  | .ife _ _ => false
  | .ifn _ _ => false
  | .ifg _ _ => false
  | .ifb _ _ => false
  | .jsr _ => true
  | .undefExt _ _ => false

end Sys2Proof.Safety
end

