-- ==== Sys2Proof/Certificates/Slice0/Obligations.lean ====
section
/-! DEFINITION. The statements for the provers. A docstring names the rule a statement formalises and, where it rests on a
point the spec marks as its own decision, that decision (D<n> of 92_eei_decisions.md). `s` is the state an instruction is
given: the one after its fetch, with `PC` past its first word (R134). -/

open Sys2Proof Sys2Proof.Machine Sys2Proof.Safety

/-! ### Encoding -/

/-- R70, R71, R73, R75, R76, R85: decoding an encoded well-formed instruction, with any extra words and any words after it,
gives it back with its extra words. The opcode numbers are the spec's decision D1. -/
def Obligations.DecodeAfterEncodeGivesTheInstruction : Prop :=
  ∀ (i : Instr) (extras rest : List Word), i.wellFormed = true → extras.length = i.extraWords →
    decodeWords (encode i extras ++ rest) = .ok (i, extras, rest)

/-- R72, R85: every first word decodes to a well-formed instruction whose encoding is that word. -/
def Obligations.EncodeAfterDecodeGivesTheWord : Prop :=
  ∀ w : Word, (decode w).wellFormed = true ∧ encodeFirst (decode w) = w

/-- R70, R71, R81, R82, D1: the patterns `bbbbbbaaaaaaoooo` and `aaaaaaeeeeee0000`, for every opcode and operand code. -/
def Obligations.OpcodeMapDecodesEveryPattern : Prop :=
  ∀ cb ca : BitVec 6,
    let a := decodeOperand ca
    let b := decodeOperand cb
    decode (cb ++ ca ++ 0b0001#4) = .set a b ∧ decode (cb ++ ca ++ 0b0010#4) = .add a b ∧
    decode (cb ++ ca ++ 0b0011#4) = .sub a b ∧ decode (cb ++ ca ++ 0b0100#4) = .mul a b ∧
    decode (cb ++ ca ++ 0b0101#4) = .div a b ∧ decode (cb ++ ca ++ 0b0110#4) = .mod a b ∧
    decode (cb ++ ca ++ 0b0111#4) = .shl a b ∧ decode (cb ++ ca ++ 0b1000#4) = .shr a b ∧
    decode (cb ++ ca ++ 0b1001#4) = .and a b ∧ decode (cb ++ ca ++ 0b1010#4) = .bor a b ∧
    decode (cb ++ ca ++ 0b1011#4) = .xor a b ∧ decode (cb ++ ca ++ 0b1100#4) = .ife a b ∧
    decode (cb ++ ca ++ 0b1101#4) = .ifn a b ∧ decode (cb ++ ca ++ 0b1110#4) = .ifg a b ∧
    decode (cb ++ ca ++ 0b1111#4) = .ifb a b ∧
    decode (ca ++ 0b000001#6 ++ 0b0000#4) = .jsr a ∧
    ∀ ext : BitVec 6, ext ≠ 0b000001#6 → decode (ca ++ ext ++ 0b0000#4) = .undefExt ext a

/-- R135: decode takes the opcode and the two operand codes, or in the extended format the extended opcode and one operand
code, from these fields of the word. -/
def Obligations.DecodeTakesTheFieldsOfTheWord : Prop :=
  ∀ w : Word,
    (opField w).zeroExtend 16 = w &&& 0xF ∧
    (midField w).zeroExtend 16 = (w >>> 4) &&& 0x3F ∧
    (highField w).zeroExtend 16 = (w >>> 10) &&& 0x3F ∧
    (w &&& 0xF = 0 →
      destination (decode w) = none ∧ condition (decode w) = none ∧
      (decode w = .jsr (decodeOperand (highField w)) ∨
        decode w = .undefExt (midField w) (decodeOperand (highField w)))) ∧
    (w &&& 0xF ≠ 0 → resolvedOperands (decode w) = [decodeOperand (midField w), decodeOperand (highField w)])

/-- R74, R76: the length of an instruction, from the fields of its first word taken as numbers; it is the decoded
instruction's length, 1 to 3. -/
def Obligations.LengthComesFromTheFirstWord : Prop :=
  ∀ w : Word,
    let extra (c : Nat) : Nat := if (0x10 ≤ c ∧ c ≤ 0x17) ∨ c = 0x1E ∨ c = 0x1F then 1 else 0
    lengthOfWord w =
      (if w.toNat % 16 ≠ 0 then 1 + extra (w.toNat / 16 % 64) + extra (w.toNat / 1024)
        else if w.toNat / 16 % 64 = 0x01 then 1 + extra (w.toNat / 1024)
        else 1) ∧
    lengthOfWord w = (decode w).length ∧ (decode w).length ≤ 3

/-- The model's choice (log entry 14): decoding a finite run of words is refused exactly when the run is shorter than the
instruction it begins, whose length R76 gives. R85's own decoder takes a first word and refuses nothing. -/
def Obligations.DecodeRefusesOnlyTruncatedRuns : Prop :=
  ∀ ws : List Word, decodeWords ws = .error .truncated ↔ ∀ w ∈ ws.head?, ws.length < lengthOfWord w

/-- R73, R21: the class and the register or value of each of the 64 operand codes. -/
def Obligations.OperandCodesMeanTheirOperands : Prop :=
  (∀ (n : Fin 8),
    let r := [GReg.A, GReg.B, GReg.C, GReg.X, GReg.Y, GReg.Z, GReg.I, GReg.J].getD n.val .A
    decodeOperand (BitVec.ofNat 6 (0x00 + n.val)) = .reg r ∧
    decodeOperand (BitVec.ofNat 6 (0x08 + n.val)) = .ind r ∧
    decodeOperand (BitVec.ofNat 6 (0x10 + n.val)) = .idx r) ∧
  decodeOperand 0x18#6 = .pop ∧ decodeOperand 0x19#6 = .peek ∧ decodeOperand 0x1A#6 = .push ∧
  decodeOperand 0x1B#6 = .sp ∧ decodeOperand 0x1C#6 = .pc ∧ decodeOperand 0x1D#6 = .ov ∧
  decodeOperand 0x1E#6 = .memNext ∧ decodeOperand 0x1F#6 = .next ∧
  ∀ v : BitVec 5, decodeOperand (BitVec.ofNat 6 (0x20 + v.toNat)) = .lit v

/-- 95_test_vectors.md: words written out there, one or more of each family. -/
def Obligations.SpecWordsDecodeAsWritten : Prop :=
  decode 0x7C01 = .set (.reg .A) .next ∧ decode 0x61C1 = .set .pc .pop ∧ decode 0x8E52 = .add (.lit 5) (.lit 3) ∧
  decode 0x6585 = .div .pop .peek ∧ decode 0x7407 = .shl (.reg .A) .ov ∧ decode 0x000B = .xor (.reg .A) (.reg .A) ∧
  decode 0x818C = .ife .pop (.lit 0) ∧ decode 0x1A3E = .ifg (.lit 3) (.reg .I) ∧ decode 0x4010 = .jsr (.idx .A) ∧
  decode 0x7C20 = .undefExt 0x02 .next ∧ decode 0x0000 = .undefExt 0x00 (.reg .A)

/-! ### Operand resolution -/

/-- R101, R102, R105, R107, R109, R112: the operand codes whose resolution changes nothing, and their slots. -/
def Obligations.PlainOperandCodesResolveInPlace : Prop :=
  ∀ s : State,
    (∀ r : GReg, resolve (decodeOperand (BitVec.ofNat 6 (0x00 + r.index))) s = (.reg r, s)) ∧
    (∀ r : GReg, resolve (decodeOperand (BitVec.ofNat 6 (0x08 + r.index))) s = (.mem (s.reg r), s)) ∧
    resolve (decodeOperand 0x19#6) s = (.mem s.sp, s) ∧
    resolve (decodeOperand 0x1B#6) s = (.sp, s) ∧
    resolve (decodeOperand 0x1D#6) s = (.ov, s) ∧
    ∀ v : BitVec 5, resolve (decodeOperand (BitVec.ofNat 6 (0x20 + v.toNat))) s = (.lit v, s)

/-- R103, R104, R106, R108, R110, R111 with R118, R119: the other operand codes, and what their slots read and take. The
sums wrap at 16 bits (the spec's decision D2). -/
def Obligations.MovingOperandCodesResolve : Prop :=
  ∀ (s t : State) (v : Word),
    (∀ r : GReg, resolve (decodeOperand (BitVec.ofNat 6 (0x10 + r.index))) s
      = (.mem (BitVec.ofNat 16 ((s.reg r).toNat + (s.memRead s.pc).toNat)), { s with pc := s.pc + 1 })) ∧
    resolve (decodeOperand 0x18#6) s = (.mem s.sp, { s with sp := s.sp + 1 }) ∧
    (writeSlot (resolve .pop s).1 v t).memRead s.sp = v ∧
    resolve (decodeOperand 0x1A#6) s = (.mem (s.sp - 1), { s with sp := s.sp - 1 }) ∧
    readSlot (resolve .push s).1 (resolve .push s).2 = s.memRead (s.sp - 1) ∧
    resolve (decodeOperand 0x1C#6) s = (.pc, s) ∧
    resolve (decodeOperand 0x1E#6) s = (.mem (s.memRead s.pc), { s with pc := s.pc + 1 }) ∧
    resolve (decodeOperand 0x1F#6) s = (.mem s.pc, { s with pc := s.pc + 1 }) ∧
    readSlot (resolve .next s).1 (resolve .next s).2 = s.memRead s.pc ∧
    (writeSlot (resolve .next s).1 v t).memRead s.pc = v

/-- R117, R118, R119: the word taken from the instruction stream; what each slot reads as; what a write to each slot leaves, a
literal taking nothing. -/
def Obligations.SlotsReadAndWriteTheirLocations : Prop :=
  ∀ (s : State) (v : Word),
    nextWord s = (s.memRead s.pc, { s with pc := BitVec.ofNat 16 (s.pc.toNat + 1) }) ∧
    (∀ r, readSlot (.reg r) s = s.reg r ∧ (writeSlot (.reg r) v s).reg r = v ∧
      (∀ q, q ≠ r → (writeSlot (.reg r) v s).reg q = s.reg q) ∧
      { writeSlot (.reg r) v s with regs := s.regs } = s) ∧
    (∀ a, readSlot (.mem a) s = s.memRead a ∧ (writeSlot (.mem a) v s).memRead a = v ∧
      (∀ c, c ≠ a → (writeSlot (.mem a) v s).memRead c = s.memRead c) ∧
      { writeSlot (.mem a) v s with mem := s.mem } = s) ∧
    readSlot .sp s = s.sp ∧ writeSlot .sp v s = { s with sp := v } ∧
    readSlot .pc s = s.pc ∧ writeSlot .pc v s = { s with pc := v } ∧
    readSlot .ov s = s.o ∧ writeSlot .ov v s = { s with o := v } ∧
    ∀ n : BitVec 5, readSlot (.lit n) s = n.zeroExtend 16 ∧ writeSlot (.lit n) v s = s

/-- R113, R120 (the reading order is the spec's decision D4): operand A is resolved first and operand B sees what that did to
`PC` and `SP`; both values are read from their slots in the state both resolutions leave, which differs from the state
before them in `PC` and `SP` alone. So `SP` reads as every POP and PUSH of the instruction left it, `PC` as the address
after the whole instruction, everything else as it was, and two operands that name one location have one value. -/
def Obligations.OperandAResolvesBeforeOperandB : Prop :=
  ∀ (oa ob : Operand) (s : State),
    let x := basicOperands oa ob s
    x.slotA = (resolve oa s).1 ∧ x.slotB = (resolve ob (resolve oa s).2).1 ∧
    x.state = (resolve ob (resolve oa s).2).2 ∧
    x.a = readSlot x.slotA x.state ∧ x.b = readSlot x.slotB x.state ∧
    x.state = { s with pc := s.pc + pcMove oa + pcMove ob, sp := s.sp + spMove oa + spMove ob } ∧
    (oa = .pop → ob = .peek → x.slotA = .mem s.sp ∧ x.slotB = .mem (s.sp + 1)) ∧
    (oa = .push → ob = .pop → x.slotA = .mem (s.sp - 1) ∧ x.slotB = .mem (s.sp - 1) ∧ x.state.sp = s.sp) ∧
    (oa.extra = 1 → ob = .memNext → x.slotB = .mem (s.memRead (s.pc + 1))) ∧
    (oa = .pc → x.a = s.pc + BitVec.ofNat 16 ob.extra) ∧
    (ob = .pc → x.b = s.pc + BitVec.ofNat 16 oa.extra) ∧
    (oa = .sp → x.a = s.sp + spMove ob) ∧ (ob = .sp → x.b = s.sp + spMove oa) ∧
    (∀ r, oa = .reg r → x.a = s.reg r) ∧ (∀ r, ob = .reg r → x.b = s.reg r) ∧
    (oa = .ov → x.a = s.o) ∧ (ob = .ov → x.b = s.o) ∧
    (∀ v, oa = .lit v → x.a = v.zeroExtend 16) ∧ (∀ v, ob = .lit v → x.b = v.zeroExtend 16) ∧
    (∀ m, x.slotA = .mem m → x.a = s.memRead m) ∧ (∀ m, x.slotB = .mem m → x.b = s.memRead m) ∧
    (x.slotA = x.slotB → x.a = x.b)

/-! ### Memory -/

/-- R50, log entry 1 (the model's choice of form): memories in canonical form that read alike are equal data. -/
def Obligations.CanonicalMemoriesThatReadAlikeAreEqual : Prop :=
  ∀ m m' : Memory, Memory.wf m = true → Memory.wf m' = true → (∀ a, Memory.read m a = Memory.read m' a) → m = m'

/-! ### Basic ALU instructions: completion, result, overflow value and frame -/

/-- R150, R151. -/
def Obligations.SetWritesTheSource : Prop :=
  ∀ (oa ob : Operand) (s : State),
    ∃ t, exec (.set oa ob) s = .next t ∧ WritesResult oa ob s t (basicOperands oa ob s).b

/-- R150, R152. That `O` ends with the carry when it is also the destination is D5; that a literal destination still writes
`O` is D13. -/
def Obligations.AddWritesSumAndCarry : Prop :=
  ∀ (oa ob : Operand) (s : State),
    let n := (basicOperands oa ob s).a.toNat + (basicOperands oa ob s).b.toNat
    ∃ t r, exec (.add oa ob) s = .next t ∧ r.toNat = n % 65536 ∧
      WritesResultThenOverflow oa ob s t r (if n > 0xFFFF then 0x0001 else 0x0000)

/-- R150, R153, under each SubOverflowPolicy; the instruction takes the default BorrowAllOnes. The borrow value is the spec's
decision D6, the order for destination `O` D5, the literal destination D13. -/
def Obligations.SubWritesDifferenceAndBorrow : Prop :=
  ∀ (oa ob : Operand) (s : State),
    let a := (basicOperands oa ob s).a
    let b := (basicOperands oa ob s).b
    (∃ t, exec (.sub oa ob) s = .next t ∧
      WritesResultThenOverflow oa ob s t (a - b) (if a.toNat < b.toNat then 0xFFFF else 0x0000)) ∧
    (∃ t, execSubWith .borrowAllOnes oa ob s = .next t ∧
      WritesResultThenOverflow oa ob s t (a - b) (if a.toNat < b.toNat then 0xFFFF else 0x0000)) ∧
    (∃ t, execSubWith .borrowOne oa ob s = .next t ∧
      WritesResultThenOverflow oa ob s t (a - b) (if a.toNat < b.toNat then 0x0001 else 0x0000)) ∧
    (∃ t, execSubWith .alwaysZero oa ob s = .next t ∧ WritesResultThenOverflow oa ob s t (a - b) 0x0000)

/-- R150, R154. Exact arithmetic is D8; the order for destination `O` is D5, the literal destination D13. -/
def Obligations.MulWritesLowAndHighHalves : Prop :=
  ∀ (oa ob : Operand) (s : State),
    let n := (basicOperands oa ob s).a.toNat * (basicOperands oa ob s).b.toNat
    ∃ t r ov, exec (.mul oa ob) s = .next t ∧ r.toNat = n % 65536 ∧ ov.toNat = n / 65536 ∧
      WritesResultThenOverflow oa ob s t r ov

/-- R150, R155, R202, under both values of DivLegacyQuotient; the instruction takes the default `false` (D7). Exact
arithmetic is D8, the order for destination `O` D5, the literal destination D13. -/
def Obligations.DivWritesQuotientAndFraction : Prop :=
  ∀ (oa ob : Operand) (s : State),
    let a := (basicOperands oa ob s).a.toNat
    let b := (basicOperands oa ob s).b.toNat
    (∃ t, exec (.div oa ob) s = .next t ∧
      if b = 0 then WritesResultThenOverflow oa ob s t 0x0000 0x0000
      else ∃ q f : Word, q.toNat = a / b ∧ f.toNat = a * 65536 / b % 65536 ∧ WritesOverflowThenResult oa ob s t q f) ∧
    (∃ t, execDivWith true oa ob s = .next t ∧
      if b = 0 then WritesResultThenOverflow oa ob s t 0x0000 0x0000
      else ∃ q f : Word, q.toNat = a / b * 0xFFFF % 65536 ∧ f.toNat = a * 65536 / b % 65536 ∧
        WritesOverflowThenResult oa ob s t q f)

/-- R150, R156, R202: `O` is unchanged unless it is the destination. -/
def Obligations.ModWritesRemainder : Prop :=
  ∀ (oa ob : Operand) (s : State),
    let a := (basicOperands oa ob s).a.toNat
    let b := (basicOperands oa ob s).b.toNat
    ∃ t r, exec (.mod oa ob) s = .next t ∧ r.toNat = (if b = 0 then 0 else a % b) ∧ WritesResult oa ob s t r

/-- R150, R157. The formula is D9, exact arithmetic D8, the order for destination `O` D5, the literal destination D13. -/
def Obligations.ShlWritesShiftedAndShiftedOutBits : Prop :=
  ∀ (oa ob : Operand) (s : State),
    let n := (basicOperands oa ob s).a.toNat * 2 ^ (basicOperands oa ob s).b.toNat
    ∃ t r ov, exec (.shl oa ob) s = .next t ∧ r.toNat = n % 65536 ∧ ov.toNat = n / 65536 % 65536 ∧
      WritesResultThenOverflow oa ob s t r ov

/-- R150, R158. The formula is D9, exact arithmetic D8, the order for destination `O` D5, the literal destination D13. -/
def Obligations.ShrWritesShiftedAndShiftedOutBits : Prop :=
  ∀ (oa ob : Operand) (s : State),
    let a := (basicOperands oa ob s).a.toNat
    let b := (basicOperands oa ob s).b.toNat
    ∃ t r ov, exec (.shr oa ob) s = .next t ∧ r.toNat = a / 2 ^ b ∧ ov.toNat = a * 65536 / 2 ^ b % 65536 ∧
      WritesResultThenOverflow oa ob s t r ov

/-- R150, R159, R160, R161: bit by bit; `O` is unchanged unless it is the destination. -/
def Obligations.BitwiseInstructionsWorkBitByBit : Prop :=
  ∀ (oa ob : Operand) (s : State),
    let a := (basicOperands oa ob s).a
    let b := (basicOperands oa ob s).b
    (∃ t r, exec (.and oa ob) s = .next t ∧ (∀ k, r.getLsbD k = (a.getLsbD k && b.getLsbD k)) ∧
      WritesResult oa ob s t r) ∧
    (∃ t r, exec (.bor oa ob) s = .next t ∧ (∀ k, r.getLsbD k = (a.getLsbD k || b.getLsbD k)) ∧
      WritesResult oa ob s t r) ∧
    (∃ t r, exec (.xor oa ob) s = .next t ∧ (∀ k, r.getLsbD k = (a.getLsbD k ^^ b.getLsbD k)) ∧
      WritesResult oa ob s t r)

/-- R121: a literal destination takes nothing, and the rest of the instruction still happens; that this includes the write of
`O` is the spec's decision D13. The state is the one operand resolution leaves. -/
def Obligations.LiteralDestinationsDiscardTheWrite : Prop :=
  ∀ (v : BitVec 5) (ob : Operand) (s : State),
    let x := basicOperands (.lit v) ob s
    exec (.set (.lit v) ob) s = .next x.state ∧
    exec (.mod (.lit v) ob) s = .next x.state ∧
    exec (.and (.lit v) ob) s = .next x.state ∧
    exec (.bor (.lit v) ob) s = .next x.state ∧
    exec (.xor (.lit v) ob) s = .next x.state ∧
    exec (.add (.lit v) ob) s = .next { x.state with o := addOverflow x.a x.b } ∧
    exec (.sub (.lit v) ob) s = .next { x.state with o := if x.a < x.b then 0xFFFF else 0x0000 } ∧
    exec (.mul (.lit v) ob) s = .next { x.state with o := mulOverflow x.a x.b } ∧
    exec (.div (.lit v) ob) s = .next { x.state with o := if x.b = 0 then 0x0000 else divOverflow x.a x.b } ∧
    exec (.shl (.lit v) ob) s = .next { x.state with o := shlOverflow x.a x.b } ∧
    exec (.shr (.lit v) ob) s = .next { x.state with o := shrOverflow x.a x.b }

/-- R122 (the order of the two writes is the spec's decision D5): what `O` ends with when it is also the destination. -/
def Obligations.OverflowRegisterAsDestination : Prop :=
  ∀ (ob : Operand) (s : State),
    let x := basicOperands .ov ob s
    exec (.add .ov ob) s = .next { x.state with o := addOverflow x.a x.b } ∧
    exec (.sub .ov ob) s = .next { x.state with o := if x.a < x.b then 0xFFFF else 0x0000 } ∧
    exec (.mul .ov ob) s = .next { x.state with o := mulOverflow x.a x.b } ∧
    exec (.shl .ov ob) s = .next { x.state with o := shlOverflow x.a x.b } ∧
    exec (.shr .ov ob) s = .next { x.state with o := shrOverflow x.a x.b } ∧
    exec (.div .ov ob) s = .next { x.state with o := BitVec.ofNat 16 (x.a.toNat / x.b.toNat) }

/-! ### Arithmetic laws -/

/-- R152, R153, R154, R155, R157, R158, R162 (exact arithmetic: D8; the borrow value: D6; the shift formulas: D9): result and
overflow value together hold the exact sum, difference (with `O` read as a signed borrow), product, shifted value and
quotient. -/
def Obligations.ResultAndOverflowTogetherAreExact : Prop :=
  ∀ a b : Word,
    (addOverflow a b).toNat * 65536 + (addResult a b).toNat = a.toNat + b.toNat ∧
    (subOverflow .borrowAllOnes a b).toInt * 65536 + (subResult a b).toNat = (a.toNat : Int) - b.toNat ∧
    (mulOverflow a b).toNat * 65536 + (mulResult a b).toNat = a.toNat * b.toNat ∧
    (b.toNat ≤ 16 → (shlOverflow a b).toNat * 65536 + (shlResult a b).toNat = a.toNat * 2 ^ b.toNat) ∧
    (shrResult a b).toNat * 65536 + (shrOverflow a b).toNat = a.toNat * 65536 / 2 ^ b.toNat ∧
    (b ≠ 0 → (divQuotient false a b).toNat * 65536 + (divOverflow a b).toNat = a.toNat * 65536 / b.toNat)

/-- R153: the borrow value is ADD's formula `trunc16(d div 2^16)` on the exact signed difference (the spec's decision D6). -/
def Obligations.SubBorrowIsTheHighPartOfTheDifference : Prop :=
  ∀ a b : Word, subOverflow .borrowAllOnes a b = BitVec.ofInt 16 (((a.toNat : Int) - b.toNat).fdiv 65536)

/-- R157, R158 (D8, D9): the corner cases of the shift count. -/
def Obligations.ShiftCountCorners : Prop :=
  ∀ a b : Word,
    if b = 0 then shlResult a b = a ∧ shlOverflow a b = 0 ∧ shrResult a b = a ∧ shrOverflow a b = 0
    else if b.toNat < 16 then shlResult a b = a <<< b.toNat ∧ shlOverflow a b = a >>> (16 - b.toNat) ∧
      shrResult a b = a >>> b.toNat ∧ shrOverflow a b = a <<< (16 - b.toNat)
    else if b.toNat < 32 then shlResult a b = 0 ∧ shlOverflow a b = a <<< (b.toNat - 16) ∧
      shrResult a b = 0 ∧ shrOverflow a b = a >>> (b.toNat - 16)
    else shlResult a b = 0 ∧ shlOverflow a b = 0 ∧ shrResult a b = 0 ∧ shrOverflow a b = 0

/-- R120, R161, R181, R182 (one read per operand: D4): two operands that name one location. -/
def Obligations.OperandsNamingOneLocation : Prop :=
  ∀ (oa ob : Operand) (s : State), (basicOperands oa ob s).slotA = (basicOperands oa ob s).slotB →
    (∃ t, exec (.ife oa ob) s = .next t ∧ t.skip = s.skip) ∧
    (∃ t, exec (.ifn oa ob) s = .next t ∧ t.skip = true) ∧
    (∃ t, exec (.xor oa ob) s = .next t ∧ WritesResult oa ob s t 0x0000) ∧
    (∃ t, exec (.sub oa ob) s = .next t ∧ WritesResultThenOverflow oa ob s t 0x0000 0x0000)

/-- R151: SET PUSH, POP leaves `SP` where it was and rewrites the word at `SP - 1` with itself: with memory in canonical form
nothing changes. -/
def Obligations.SetPushPopChangesNothing : Prop :=
  ∀ s : State, Memory.wf s.mem = true → exec (.set .push .pop) s = .next s

/-- R63, R111, R119, R236: code 0x1F as a destination stores into the extra word's own place, and the instruction uses the
word as it was before. -/
def Obligations.NextWordDestinationRewritesTheExtraWord : Prop :=
  ∀ (ob : Operand) (s : State),
    let x := basicOperands .next ob s
    x.a = s.memRead s.pc ∧
    (∃ t, exec (.set .next ob) s = .next t ∧ t.memRead s.pc = x.b) ∧
    (∃ t, exec (.add .next ob) s = .next t ∧ t.memRead s.pc = s.memRead s.pc + x.b)

/-! ### Conditionals -/

/-- R180, R181, R182, R185: `skip` is set exactly when the condition fails, and the operands' moves stand. -/
def Obligations.IfeAndIfnSkipOnTheirFalseCondition : Prop :=
  ∀ (oa ob : Operand) (s : State),
    let a := (basicOperands oa ob s).a.toNat
    let b := (basicOperands oa ob s).b.toNat
    (∃ t, exec (.ife oa ob) s = .next t ∧ SkipsWhen (a ≠ b) oa ob s t) ∧
    (∃ t, exec (.ifn oa ob) s = .next t ∧ SkipsWhen (a = b) oa ob s t)

/-- R180, R183, R184, R185: an unsigned comparison; a test for a common set bit. -/
def Obligations.IfgAndIfbSkipOnTheirFalseCondition : Prop :=
  ∀ (oa ob : Operand) (s : State),
    let a := (basicOperands oa ob s).a
    let b := (basicOperands oa ob s).b
    (∃ t, exec (.ifg oa ob) s = .next t ∧ SkipsWhen (a.toNat ≤ b.toNat) oa ob s t) ∧
    (∃ t, exec (.ifb oa ob) s = .next t ∧ SkipsWhen (∀ k, ¬(a.getLsbD k = true ∧ b.getLsbD k = true)) oa ob s t)

/-! ### JSR and the undefined extended opcodes -/

/-- R191 with the default JsrOrder (the spec's decision D10): the operand is resolved and read, then the address after the
whole instruction is pushed, then the jump is taken. -/
def Obligations.JsrPushesReturnAddressAndJumps : Prop :=
  ∀ (oa : Operand) (s : State),
    let target := readSlot (resolve oa s).1 (resolve oa s).2
    let top := s.sp + spMove oa - 1
    ∃ t, exec (.jsr oa) s = .next t ∧ t.pc = target ∧ t.sp = top ∧
      t.memRead top = s.pc + pcMove oa ∧ (∀ a, a ≠ top → t.memRead a = s.memRead a) ∧
      (∀ r, t.reg r = s.reg r) ∧ t.o = s.o ∧ t.skip = s.skip ∧ t.halted = s.halted

/-- R191 with JsrOrder = PushThenResolve: the push comes first, with `PC` before any extra word is consumed. -/
def Obligations.JsrUnderPushThenResolve : Prop :=
  ∀ (oa : Operand) (s : State),
    let pushed : State := { s with sp := s.sp - 1, mem := Memory.write s.mem (s.sp - 1) s.pc }
    ∃ t, execJsrWith .pushThenResolve oa s = .next t ∧
      t.pc = readSlot (resolve oa pushed).1 (resolve oa pushed).2 ∧ t.sp = s.sp - 1 + spMove oa ∧
      t.memRead (s.sp - 1) = s.pc ∧ (∀ a, a ≠ s.sp - 1 → t.memRead a = s.memRead a) ∧
      (∀ r, t.reg r = s.reg r) ∧ t.o = s.o ∧ t.skip = s.skip ∧ t.halted = s.halted

/-- R192 (no operand is resolved: the spec's decision D11): every undefined extended opcode sets `halted` and changes nothing
else. -/
def Obligations.UndefinedExtendedOpcodesHalt : Prop :=
  ∀ (ext : BitVec 6) (oa : Operand) (s : State), exec (.undefExt ext oa) s = .next { s with halted := true }

/-- R193: after a JSR, `SET PC, POP` (word 0x61C1) run with `SP` and the pushed word as JSR left them goes on after the whole
JSR and gives the stack back. -/
def Obligations.ReturnByPopUndoesTheCall : Prop :=
  ∀ (s t u v : State), s.skip = false → isJsr (decode (wordAtPc s)) = true → step s = .next t →
    u.skip = false → u.sp = t.sp → u.memRead t.sp = t.memRead t.sp → wordAtPc u = 0x61C1 → step u = .next v →
      v.pc = s.pc + BitVec.ofNat 16 (lengthOfWord (wordAtPc s)) ∧ v.sp = t.sp + 1 ∧ v.mem = u.mem

/-! ### The step -/

/-- R130, R134, R135, R136, R137: when the word at `PC` decodes to `i` (which is well formed) and nothing is skipped or
halted, the step is `exec i` of the state with `PC` past that word. -/
def Obligations.StepRunsTheDecodedInstruction : Prop :=
  ∀ (s : State) (i : Instr), s.halted = false → s.skip = false → decode (s.memRead s.pc) = i →
    i.wellFormed = true ∧ step s = exec i { s with pc := s.pc + 1 }

/-- The model's test hook (log entry 6): the instruction the decoder reads from a table word is what the next step runs when
that word is placed at `PC`. -/
def Obligations.PlacedWordIsTheNextInstructionRun : Prop :=
  ∀ (s : State) (nbits w : Nat) (i : Instr), decodeTableWord nbits w = some i →
    ∃ u : State, step (s.withFetchWord nbits w) = exec i u ∧ u.pc = s.pc + 1 ∧ u.sp = s.sp ∧ u.o = s.o ∧
      u.regs = s.regs ∧ u.skip = false ∧ u.halted = false ∧
      ∀ a, a ≠ s.pc → a ≠ s.pc + 1 → a ≠ s.pc + 2 → u.memRead a = s.memRead a

/-- R132, R133: a skip step advances `PC` by the policy's count of words, clears `skip`, and does nothing else; the step takes
the default FullInstruction (the spec's decision D3). -/
def Obligations.SkipStepAdvancesPastTheInstruction : Prop :=
  ∀ s : State,
    (s.halted = false → s.skip = true →
      step s = .next { s with pc := s.pc + BitVec.ofNat 16 (lengthOfWord (wordAtPc s)), skip := false }) ∧
    skipStepWith .oneWord s = { s with pc := s.pc + 1, skip := false } ∧
    skipStepWith .noAdvance s = { s with skip := false }

/-- R131, R200, R202, R204, R206 (no step while halted: the spec's decision D12): a step is refused by nothing and faults on
nothing but a halted machine; otherwise it goes on. -/
def Obligations.StepGoesOnExactlyWhenNotHalted : Prop :=
  ∀ s : State, (s.halted = true → step s = .fault .halted) ∧ (s.halted = false → ∃ t, step s = .next t)

/-- R200, R207 (D11, D12): the halting step changes only `PC` and `halted`, leaves the halting word just before `PC`, and is
the last. -/
def Obligations.HaltIsPreciseAndTerminal : Prop :=
  ∀ s : State, s.halted = false → s.skip = false → haltingWord (wordAtPc s) = true →
    let t : State := { s with pc := s.pc + 1, halted := true }
    step s = .next t ∧ t.memRead (t.pc - 1) = wordAtPc s ∧ step t = .fault .halted

/-- R142: a basic instruction that does not write `PC` ends with `PC` past the whole instruction. -/
def Obligations.PcEndsPastTheBasicInstruction : Prop :=
  ∀ s t : State, step s = .next t → s.skip = false → (resolvedOperands (decode (wordAtPc s))).length = 2 →
    destination (decode (wordAtPc s)) ≠ some .pc → t.pc = s.pc + BitVec.ofNat 16 (lengthOfWord (wordAtPc s))

/-- R139 (with D3): after an IF whose condition fails, the next step skips one whole instruction, whatever it is, unevaluated,
and the step after that runs what follows. -/
def Obligations.FailedIfSkipsExactlyOneInstruction : Prop :=
  ∀ s t : State, step s = .next t → t.skip = true →
    let u : State := { t with pc := t.pc + BitVec.ofNat 16 (decode (wordAtPc t)).length, skip := false }
    step t = .next u ∧ step u = exec (decode (wordAtPc u)) { u with pc := u.pc + 1 }

/-! ### Whole-machine rules -/

/-- R22: a general register changes only in a step that runs an instruction whose destination operand is that register. -/
def Obligations.RegistersChangeOnlyAsDestinations : Prop :=
  ∀ (s t : State) (r : GReg), step s = .next t → t.reg r ≠ s.reg r →
    s.skip = false ∧ destination (decode (wordAtPc s)) = some (.reg r)

/-- R28: where `SP` is not the destination, it ends moved by the POPs and PUSHes among the operands and by JSR's push, and by
nothing else; a skip step leaves it. -/
def Obligations.StackPointerMovesOnlyByStackOperands : Prop :=
  ∀ s t : State, step s = .next t →
    (s.skip = true → t.sp = s.sp) ∧
    (s.skip = false → destination (decode (wordAtPc s)) ≠ some .sp →
      t.sp = s.sp + ((resolvedOperands (decode (wordAtPc s))).map spMove).sum
        - (if isJsr (decode (wordAtPc s)) then 1 else 0))

/-- R29: `O` changes only in ADD, SUB, MUL, DIV, SHL and SHR, or as the destination operand. -/
def Obligations.OverflowRegisterChangesOnlyByItsWriters : Prop :=
  ∀ s t : State, step s = .next t → t.o ≠ s.o →
    s.skip = false ∧
      (writesOverflow (decode (wordAtPc s)) = true ∨ destination (decode (wordAtPc s)) = some .ov)

/-- R30: after a step `skip` is set exactly when the step ran an IF whose condition failed; so a skip step clears it. -/
def Obligations.SkipIsSetOnlyByFailedIfs : Prop :=
  ∀ s t : State, step s = .next t →
    (t.skip = true ↔ s.skip = false ∧ ∃ holds oa ob, condition (decode (wordAtPc s)) = some (holds, oa, ob) ∧
      holds (basicOperands oa ob { s with pc := s.pc + 1 }).a (basicOperands oa ob { s with pc := s.pc + 1 }).b = false)

/-- R31, R206: `halted` is set exactly by running (not skipping) an undefined extended word. -/
def Obligations.HaltedIsSetOnlyByUndefinedExtendedWords : Prop :=
  ∀ s t : State, step s = .next t → (t.halted = true ↔ s.skip = false ∧ haltingWord (wordAtPc s) = true)

/-- R44, R52, R56, R60 (the order of the transactions is the spec's decision D21): the memory a step leaves is what its port
transactions leave, so exactly the words they write change. -/
def Obligations.PortWritesAccountForMemory : Prop :=
  ∀ s t : State, step s = .next t → t.mem = replay (portTrace s) s.mem

/-- R60, R63 (the order is the spec's decision D21; the extra-word read of code 0x1F is log entry 7): the port reads of a step
come first and see memory as the step found it, the fetch first of all; at most one write follows. -/
def Obligations.PortReadsComeBeforeTheOneWrite : Prop :=
  ∀ s : State, s.halted = false →
    ∃ (reads : List Word) (writes : List (Word × Word)),
      portTrace s = reads.map (fun a => Access.read a (s.memRead a)) ++ writes.map (fun c => Access.write c.1 c.2) ∧
      reads.head? = some s.pc ∧ writes.length ≤ 1

/-! ### Invariant -/

/-- R50, R200, R206: every step keeps the invariant: memory in canonical form, a halted machine is not skipping and stands
just after the undefined extended word that halted it. -/
def Obligations.StepKeepsTheMachineInvariant : Prop :=
  ∀ s t : State, Inv s → step s = .next t → Inv t

/-- R36: the reset state meets the invariant. -/
def Obligations.ResetMeetsTheMachineInvariant : Prop := Inv State.reset

/-! ### Reset and the block interface -/

/-- R36, R230: every field after initialization. -/
def Obligations.ResetValues : Prop :=
  (∀ a, State.reset.memRead a = 0x0000) ∧ (∀ r, State.reset.reg r = 0x0000) ∧ State.reset.sp = 0xFFFF ∧
  State.reset.pc = 0x0000 ∧ State.reset.o = 0x0000 ∧ State.reset.skip = false ∧ State.reset.halted = false

/-- R231, R234, V-RST of 95_test_vectors.md: with nothing loaded the first step fetches 0x0000 at address 0 and halts. -/
def Obligations.FirstStepOnEmptyMemoryHalts : Prop :=
  step State.reset = .next { State.reset with pc := 0x0001, halted := true }

/-- R41, R43, R45, R230 (D12, D20, D22): how the block answers its host's requests. -/
def Obligations.BlockAnswersItsHost : Prop :=
  ∀ (b : Block) (a w : Word),
    serve .init b = .next { machine := State.reset, running := false } ∧
    (b.running = true → serve (.load a w) b = .refused .loadAfterFirstStep) ∧
    (b.running = false → ∃ b', serve (.load a w) b = .next b' ∧ b'.running = false ∧ b'.machine.memRead a = w ∧
      (∀ c, c ≠ a → b'.machine.memRead c = b.machine.memRead c) ∧ { b'.machine with mem := b.machine.mem } = b.machine) ∧
    (haltedOutput b = true → serve .step b = .fault .halted) ∧
    (haltedOutput b = false → ∃ s, step b.machine = .next s ∧ serve .step b = .next { machine := s, running := true })

/-- R20, R42: the inspection output shows the whole state: two states with memory in canonical form that inspect alike are
equal. -/
def Obligations.InspectionShowsTheWholeState : Prop :=
  ∀ s t : State, Memory.wf s.mem = true → Memory.wf t.mem = true → (∀ f, inspect f s = inspect f t) → s = t

/-- R41, R141 (no step while halted: the spec's decision D12): a loop that may issue no step leaves the machine as it is; while
`halted` is not set the loop takes a step and goes on from there; at `halted` it ends, and more polling changes nothing.
What it leaves is reached by steps. -/
def Obligations.DrivingLoopEndsAtHalted : Prop :=
  ∀ (n : Nat) (s : State), drive 0 s = s ∧
    (∀ t, s.halted = false → step s = .next t → drive (n + 1) s = drive n t) ∧
    (s.halted = true → drive n s = s) ∧
    Reaches s (drive n s) ∧
    ((drive n s).halted = true → ∀ m, n ≤ m → drive m s = drive n s)
end

