-- ==== Sys2Proof/Laws/State.lean ====
section
/-! SUPPORT. One lemma per field per update of the state, true by `rfl`, and the reads of registers and memory words through
every update, so that no later proof unfolds a record update. -/

namespace Sys2Proof.Machine

/-! ### General registers (R21, R22) -/

@[simp] theorem GRegs.get_set_same (g : GRegs) (r : GReg) (v : Word) : (g.set r v).get r = v := by
  cases r <;> rfl

theorem GRegs.get_set_other (g : GRegs) (r q : GReg) (v : Word) (h : q ≠ r) : (g.set r v).get q = g.get q := by
  cases r <;> cases q <;> first | rfl | exact absurd rfl h

/-- Equal registers are equal data. -/
theorem GRegs.ext_get (g g' : GRegs) (h : ∀ r, g.get r = g'.get r) : g = g' := by
  have hA := h .A; have hB := h .B; have hC := h .C; have hX := h .X
  have hY := h .Y; have hZ := h .Z; have hI := h .I; have hJ := h .J
  cases g; cases g'
  simp only [GRegs.get] at hA hB hC hX hY hZ hI hJ
  subst hA hB hC hX hY hZ hI hJ
  rfl

/-! ### `setReg` -/

@[simp] theorem State.setReg_regs (s : State) (r : GReg) (v : Word) : (s.setReg r v).regs = s.regs.set r v := rfl
@[simp] theorem State.setReg_sp (s : State) (r : GReg) (v : Word) : (s.setReg r v).sp = s.sp := rfl
@[simp] theorem State.setReg_pc (s : State) (r : GReg) (v : Word) : (s.setReg r v).pc = s.pc := rfl
@[simp] theorem State.setReg_o (s : State) (r : GReg) (v : Word) : (s.setReg r v).o = s.o := rfl
@[simp] theorem State.setReg_skip (s : State) (r : GReg) (v : Word) : (s.setReg r v).skip = s.skip := rfl
@[simp] theorem State.setReg_halted (s : State) (r : GReg) (v : Word) : (s.setReg r v).halted = s.halted := rfl
@[simp] theorem State.setReg_mem (s : State) (r : GReg) (v : Word) : (s.setReg r v).mem = s.mem := rfl
@[simp] theorem State.setReg_reg_same (s : State) (r : GReg) (v : Word) : (s.setReg r v).reg r = v :=
  GRegs.get_set_same _ _ _
theorem State.setReg_reg_other (s : State) (r q : GReg) (v : Word) (h : q ≠ r) : (s.setReg r v).reg q = s.reg q :=
  GRegs.get_set_other _ _ _ _ h
@[simp] theorem State.setReg_memRead (s : State) (r : GReg) (v : Word) (c : Word) : (s.setReg r v).memRead c = s.memRead c := rfl

/-! ### `setSp` -/

@[simp] theorem State.setSp_regs (s : State) (v : Word) : (s.setSp v).regs = s.regs := rfl
@[simp] theorem State.setSp_sp (s : State) (v : Word) : (s.setSp v).sp = v := rfl
@[simp] theorem State.setSp_pc (s : State) (v : Word) : (s.setSp v).pc = s.pc := rfl
@[simp] theorem State.setSp_o (s : State) (v : Word) : (s.setSp v).o = s.o := rfl
@[simp] theorem State.setSp_skip (s : State) (v : Word) : (s.setSp v).skip = s.skip := rfl
@[simp] theorem State.setSp_halted (s : State) (v : Word) : (s.setSp v).halted = s.halted := rfl
@[simp] theorem State.setSp_mem (s : State) (v : Word) : (s.setSp v).mem = s.mem := rfl
@[simp] theorem State.setSp_reg (s : State) (v : Word) (q : GReg) : (s.setSp v).reg q = s.reg q := rfl
@[simp] theorem State.setSp_memRead (s : State) (v : Word) (c : Word) : (s.setSp v).memRead c = s.memRead c := rfl

/-! ### `setPc` -/

@[simp] theorem State.setPc_regs (s : State) (v : Word) : (s.setPc v).regs = s.regs := rfl
@[simp] theorem State.setPc_sp (s : State) (v : Word) : (s.setPc v).sp = s.sp := rfl
@[simp] theorem State.setPc_pc (s : State) (v : Word) : (s.setPc v).pc = v := rfl
@[simp] theorem State.setPc_o (s : State) (v : Word) : (s.setPc v).o = s.o := rfl
@[simp] theorem State.setPc_skip (s : State) (v : Word) : (s.setPc v).skip = s.skip := rfl
@[simp] theorem State.setPc_halted (s : State) (v : Word) : (s.setPc v).halted = s.halted := rfl
@[simp] theorem State.setPc_mem (s : State) (v : Word) : (s.setPc v).mem = s.mem := rfl
@[simp] theorem State.setPc_reg (s : State) (v : Word) (q : GReg) : (s.setPc v).reg q = s.reg q := rfl
@[simp] theorem State.setPc_memRead (s : State) (v : Word) (c : Word) : (s.setPc v).memRead c = s.memRead c := rfl

/-! ### `setO` -/

@[simp] theorem State.setO_regs (s : State) (v : Word) : (s.setO v).regs = s.regs := rfl
@[simp] theorem State.setO_sp (s : State) (v : Word) : (s.setO v).sp = s.sp := rfl
@[simp] theorem State.setO_pc (s : State) (v : Word) : (s.setO v).pc = s.pc := rfl
@[simp] theorem State.setO_o (s : State) (v : Word) : (s.setO v).o = v := rfl
@[simp] theorem State.setO_skip (s : State) (v : Word) : (s.setO v).skip = s.skip := rfl
@[simp] theorem State.setO_halted (s : State) (v : Word) : (s.setO v).halted = s.halted := rfl
@[simp] theorem State.setO_mem (s : State) (v : Word) : (s.setO v).mem = s.mem := rfl
@[simp] theorem State.setO_reg (s : State) (v : Word) (q : GReg) : (s.setO v).reg q = s.reg q := rfl
@[simp] theorem State.setO_memRead (s : State) (v : Word) (c : Word) : (s.setO v).memRead c = s.memRead c := rfl

/-! ### `setSkip` -/

@[simp] theorem State.setSkip_regs (s : State) (f : Bool) : (s.setSkip f).regs = s.regs := rfl
@[simp] theorem State.setSkip_sp (s : State) (f : Bool) : (s.setSkip f).sp = s.sp := rfl
@[simp] theorem State.setSkip_pc (s : State) (f : Bool) : (s.setSkip f).pc = s.pc := rfl
@[simp] theorem State.setSkip_o (s : State) (f : Bool) : (s.setSkip f).o = s.o := rfl
@[simp] theorem State.setSkip_skip (s : State) (f : Bool) : (s.setSkip f).skip = f := rfl
@[simp] theorem State.setSkip_halted (s : State) (f : Bool) : (s.setSkip f).halted = s.halted := rfl
@[simp] theorem State.setSkip_mem (s : State) (f : Bool) : (s.setSkip f).mem = s.mem := rfl
@[simp] theorem State.setSkip_reg (s : State) (f : Bool) (q : GReg) : (s.setSkip f).reg q = s.reg q := rfl
@[simp] theorem State.setSkip_memRead (s : State) (f : Bool) (c : Word) : (s.setSkip f).memRead c = s.memRead c := rfl

/-! ### `setHalted` -/

@[simp] theorem State.setHalted_regs (s : State) (f : Bool) : (s.setHalted f).regs = s.regs := rfl
@[simp] theorem State.setHalted_sp (s : State) (f : Bool) : (s.setHalted f).sp = s.sp := rfl
@[simp] theorem State.setHalted_pc (s : State) (f : Bool) : (s.setHalted f).pc = s.pc := rfl
@[simp] theorem State.setHalted_o (s : State) (f : Bool) : (s.setHalted f).o = s.o := rfl
@[simp] theorem State.setHalted_skip (s : State) (f : Bool) : (s.setHalted f).skip = s.skip := rfl
@[simp] theorem State.setHalted_halted (s : State) (f : Bool) : (s.setHalted f).halted = f := rfl
@[simp] theorem State.setHalted_mem (s : State) (f : Bool) : (s.setHalted f).mem = s.mem := rfl
@[simp] theorem State.setHalted_reg (s : State) (f : Bool) (q : GReg) : (s.setHalted f).reg q = s.reg q := rfl
@[simp] theorem State.setHalted_memRead (s : State) (f : Bool) (c : Word) : (s.setHalted f).memRead c = s.memRead c := rfl

/-! ### `memWrite` -/

@[simp] theorem State.memWrite_regs (s : State) (a v : Word) : (s.memWrite a v).regs = s.regs := rfl
@[simp] theorem State.memWrite_sp (s : State) (a v : Word) : (s.memWrite a v).sp = s.sp := rfl
@[simp] theorem State.memWrite_pc (s : State) (a v : Word) : (s.memWrite a v).pc = s.pc := rfl
@[simp] theorem State.memWrite_o (s : State) (a v : Word) : (s.memWrite a v).o = s.o := rfl
@[simp] theorem State.memWrite_skip (s : State) (a v : Word) : (s.memWrite a v).skip = s.skip := rfl
@[simp] theorem State.memWrite_halted (s : State) (a v : Word) : (s.memWrite a v).halted = s.halted := rfl
@[simp] theorem State.memWrite_mem (s : State) (a v : Word) : (s.memWrite a v).mem = Memory.write s.mem a v := rfl
@[simp] theorem State.memWrite_reg (s : State) (a v : Word) (q : GReg) : (s.memWrite a v).reg q = s.reg q := rfl

/-! ### Storing a run of words changes memory alone -/

@[simp] theorem State.storeWords_regs (ws : List Word) (s : State) (a : Word) : (s.storeWords a ws).regs = s.regs := by
  induction ws generalizing s a with
  | nil => rfl
  | cons w ws ih => simp [State.storeWords, ih]

@[simp] theorem State.storeWords_sp (ws : List Word) (s : State) (a : Word) : (s.storeWords a ws).sp = s.sp := by
  induction ws generalizing s a with
  | nil => rfl
  | cons w ws ih => simp [State.storeWords, ih]

@[simp] theorem State.storeWords_pc (ws : List Word) (s : State) (a : Word) : (s.storeWords a ws).pc = s.pc := by
  induction ws generalizing s a with
  | nil => rfl
  | cons w ws ih => simp [State.storeWords, ih]

@[simp] theorem State.storeWords_o (ws : List Word) (s : State) (a : Word) : (s.storeWords a ws).o = s.o := by
  induction ws generalizing s a with
  | nil => rfl
  | cons w ws ih => simp [State.storeWords, ih]

@[simp] theorem State.storeWords_skip (ws : List Word) (s : State) (a : Word) : (s.storeWords a ws).skip = s.skip := by
  induction ws generalizing s a with
  | nil => rfl
  | cons w ws ih => simp [State.storeWords, ih]

@[simp] theorem State.storeWords_halted (ws : List Word) (s : State) (a : Word) : (s.storeWords a ws).halted = s.halted := by
  induction ws generalizing s a with
  | nil => rfl
  | cons w ws ih => simp [State.storeWords, ih]

end Sys2Proof.Machine
end

