-- ==== Sys2Proof/Laws/Decode.lean ====
section
/-! SUPPORT. The fields of a packed word, and operand codes both ways. -/

namespace Sys2Proof

theorem opField_toNat (w : Word) : (opField w).toNat = w.toNat % 2 ^ 4 := by
  simp [opField, BitVec.extractLsb'_toNat]

theorem midField_toNat (w : Word) : (midField w).toNat = w.toNat / 2 ^ 4 % 2 ^ 6 := by
  simp [midField, BitVec.extractLsb'_toNat, Nat.shiftRight_eq_div_pow]

theorem highField_toNat (w : Word) : (highField w).toNat = w.toNat / 2 ^ 10 := by
  have := w.isLt
  simp only [highField, BitVec.extractLsb'_toNat, Nat.shiftRight_eq_div_pow]
  omega

theorem packWord_toNat (high mid : BitVec 6) (op : BitVec 4) :
    (packWord high mid op).toNat = high.toNat * 2 ^ 10 + mid.toNat * 2 ^ 4 + op.toNat := by
  have h1 := high.isLt; have h2 := mid.isLt; have h3 := op.isLt
  simp only [packWord, trunc16, BitVec.toNat_ofNat]
  omega

@[simp] theorem opField_packWord (high mid : BitVec 6) (op : BitVec 4) : opField (packWord high mid op) = op := by
  have h3 := op.isLt
  apply BitVec.eq_of_toNat_eq
  rw [opField_toNat, packWord_toNat]
  omega

@[simp] theorem midField_packWord (high mid : BitVec 6) (op : BitVec 4) : midField (packWord high mid op) = mid := by
  have h2 := mid.isLt; have h3 := op.isLt
  apply BitVec.eq_of_toNat_eq
  rw [midField_toNat, packWord_toNat]
  omega

@[simp] theorem highField_packWord (high mid : BitVec 6) (op : BitVec 4) : highField (packWord high mid op) = high := by
  have h1 := high.isLt; have h2 := mid.isLt; have h3 := op.isLt
  apply BitVec.eq_of_toNat_eq
  rw [highField_toNat, packWord_toNat]
  omega

/-- A word is its three fields. -/
theorem packWord_fields (w : Word) : packWord (highField w) (midField w) (opField w) = w := by
  have h := w.isLt
  apply BitVec.eq_of_toNat_eq
  rw [packWord_toNat, highField_toNat, midField_toNat, opField_toNat]
  omega

theorem decodeOperand_lit (v : BitVec 5) : decodeOperand (BitVec.ofNat 6 (0x20 + v.toNat)) = .lit v := by
  revert v; decide

/-- R73: every operand's code means that operand. -/
@[simp] theorem decodeOperand_encodeOperand (d : Operand) : decodeOperand (encodeOperand d) = d := by
  cases d with
  | reg r => cases r <;> rfl
  | ind r => cases r <;> rfl
  | idx r => cases r <;> rfl
  | lit v => exact decodeOperand_lit v
  | _ => rfl

/-- R73: all 64 codes are assigned, each to one operand. -/
@[simp] theorem encodeOperand_decodeOperand (c : BitVec 6) : encodeOperand (decodeOperand c) = c := by
  revert c; decide

/-- R74, on codes and on operands. -/
theorem extraOfCode_eq (c : BitVec 6) : extraOfCode c = (decodeOperand c).extra := by
  revert c; decide

theorem extra_le_one (d : Operand) : d.extra ≤ 1 := by cases d <;> simp [Operand.extra]

/-- R74, on an operand's code. -/
@[simp] theorem extraOfCode_encodeOperand (d : Operand) : extraOfCode (encodeOperand d) = d.extra := by
  rw [extraOfCode_eq, decodeOperand_encodeOperand]

end Sys2Proof
end

