-- ==== Sys2Proof/Laws/Memory.lean ====
section
/-! SUPPORT. Memory: a read after a write (R56, R59), and that every memory operation keeps the canonical form. -/

namespace Sys2Proof.Machine

theorem Memory.lookup_erase (m : Memory) (a b : Nat) :
    Memory.lookup (Memory.erase m a) b = if b = a then Memory.unlisted else Memory.lookup m b := by
  induction m with
  | nil => simp [Memory.erase, Memory.lookup]
  | cons c m ih => simp only [Memory.erase, Memory.lookup]; split <;> simp only [Memory.lookup, ih] <;> grind

theorem Memory.lookup_insert (m : Memory) (a b : Nat) (v : Word)
    (hm : ∀ c ∈ m, c.1 ≠ a) : Memory.lookup (Memory.insert m a v) b = if b = a then v else Memory.lookup m b := by
  induction m with
  | nil => simp only [Memory.insert, Memory.lookup]; grind
  | cons c m ih =>
    have hc : c.1 ≠ a := hm c (by simp)
    have ih' := ih (fun d hd => hm d (by simp [hd]))
    simp only [Memory.insert]
    split <;> simp only [Memory.lookup, ih'] <;> grind

theorem Memory.not_mem_erase (m : Memory) (a : Nat) : ∀ c ∈ Memory.erase m a, c.1 ≠ a := by
  induction m with
  | nil => simp [Memory.erase]
  | cons c m ih => simp only [Memory.erase]; split <;> grind

/-- R56, R59: a read answers the latest write to its address; a write changes exactly the word addressed. -/
theorem Memory.read_write (m : Memory) (a b v : Word) :
    Memory.read (Memory.write m a v) b = if b = a then v else Memory.read m b := by
  have hab : b.toNat = a.toNat ↔ b = a := BitVec.toNat_inj
  unfold Memory.read Memory.write
  split
  · rename_i h; rw [Memory.lookup_erase]; simp only [hab, h]
  · rw [Memory.lookup_insert _ _ _ _ (Memory.not_mem_erase _ _), Memory.lookup_erase]
    simp only [hab]; grind

@[simp] theorem State.memWrite_memRead_same (s : State) (a v : Word) : (s.memWrite a v).memRead a = v := by
  simp [State.memRead, Memory.read_write]

theorem State.memWrite_memRead_other (s : State) (a b v : Word) (h : b ≠ a) :
    (s.memWrite a v).memRead b = s.memRead b := by
  simp [State.memRead, Memory.read_write, h]

/-! ### The canonical form -/

theorem Memory.wfFrom_mono (m : Memory) (lo lo' : Nat) (h : lo' ≤ lo) (hm : Memory.wfFrom lo m = true) :
    Memory.wfFrom lo' m = true := by
  cases m with
  | nil => rfl
  | cons c m => simp only [Memory.wfFrom, Bool.and_eq_true, decide_eq_true_eq] at hm ⊢; grind

theorem Memory.erase_wfFrom (m : Memory) (a lo : Nat) (hm : Memory.wfFrom lo m = true) :
    Memory.wfFrom lo (Memory.erase m a) = true := by
  induction m generalizing lo with
  | nil => rfl
  | cons c m ih =>
    simp only [Memory.wfFrom, Bool.and_eq_true, decide_eq_true_eq] at hm
    simp only [Memory.erase]
    split
    · exact ih lo (Memory.wfFrom_mono m _ _ (by omega) hm.2)
    · simp only [Memory.wfFrom, Bool.and_eq_true, decide_eq_true_eq]
      exact ⟨hm.1, ih _ hm.2⟩

theorem Memory.insert_wfFrom (m : Memory) (a lo : Nat) (v : Word) (hlo : lo ≤ a) (ha : a < 65536)
    (hv : v ≠ Memory.unlisted) (hne : ∀ c ∈ m, c.1 ≠ a) (hm : Memory.wfFrom lo m = true) :
    Memory.wfFrom lo (Memory.insert m a v) = true := by
  induction m generalizing lo with
  | nil => simp [Memory.insert, Memory.wfFrom, hlo, ha, hv]
  | cons c m ih =>
    have hc : c.1 ≠ a := hne c (by simp)
    simp only [Memory.wfFrom, Bool.and_eq_true, decide_eq_true_eq] at hm
    simp only [Memory.insert]
    split
    · rename_i h
      simp only [Memory.wfFrom, Bool.and_eq_true, decide_eq_true_eq, bne_iff_ne]
      exact ⟨⟨⟨hlo, ha⟩, hv⟩, ⟨⟨h, hm.1.1.2⟩, by simpa using hm.1.2⟩, hm.2⟩
    · simp only [Memory.wfFrom, Bool.and_eq_true, decide_eq_true_eq]
      exact ⟨hm.1, ih _ (by omega) (fun d hd => hne d (by simp [hd])) hm.2⟩

/-- Every write keeps the canonical form. -/
theorem Memory.write_wf (m : Memory) (a v : Word) (hm : Memory.wf m = true) : Memory.wf (Memory.write m a v) = true := by
  unfold Memory.wf Memory.write at *
  split
  · exact Memory.erase_wfFrom m _ _ hm
  · rename_i h
    exact Memory.insert_wfFrom _ _ _ _ (Nat.zero_le _) a.isLt h (Memory.not_mem_erase _ _) (Memory.erase_wfFrom m _ _ hm)

theorem State.memWrite_wf (s : State) (a v : Word) (h : Memory.wf s.mem = true) :
    Memory.wf (s.memWrite a v).mem = true := Memory.write_wf _ _ _ h

/-- Storing a run of words keeps the canonical form. -/
theorem State.storeWords_wf (ws : List Word) (s : State) (a : Word) (h : Memory.wf s.mem = true) :
    Memory.wf (s.storeWords a ws).mem = true := by
  induction ws generalizing s a with
  | nil => exact h
  | cons w ws ih => exact ih _ _ (State.memWrite_wf _ _ _ h)

/-- R36: the reset memory is in canonical form. -/
theorem State.reset_wf : Memory.wf State.reset.mem = true := rfl

end Sys2Proof.Machine
end

