-- ==== Sys2Proof/Laws/Operands.lean ====
section
/-! SUPPORT. The operand resolver and the slots: everything they can do, said once. -/

namespace Sys2Proof.Machine

open Sys2Proof.Safety

/-! ### `resolve` moves `PC` and `SP` and nothing else (R100) -/

@[simp] theorem resolve_regs (d : Operand) (s : State) : (resolve d s).2.regs = s.regs := by cases d <;> rfl
@[simp] theorem resolve_o (d : Operand) (s : State) : (resolve d s).2.o = s.o := by cases d <;> rfl
@[simp] theorem resolve_skip (d : Operand) (s : State) : (resolve d s).2.skip = s.skip := by cases d <;> rfl
@[simp] theorem resolve_halted (d : Operand) (s : State) : (resolve d s).2.halted = s.halted := by cases d <;> rfl
@[simp] theorem resolve_mem (d : Operand) (s : State) : (resolve d s).2.mem = s.mem := by cases d <;> rfl
@[simp] theorem resolve_reg (d : Operand) (s : State) (q : GReg) : (resolve d s).2.reg q = s.reg q := by cases d <;> rfl
@[simp] theorem resolve_memRead (d : Operand) (s : State) (a : Word) : (resolve d s).2.memRead a = s.memRead a := by
  cases d <;> rfl

/-- R24: `PC` moves past the extra word, if there is one. -/
theorem resolve_pc (d : Operand) (s : State) : (resolve d s).2.pc = s.pc + pcMove d := by
  cases d <;> simp [resolve, nextWord, pcMove, Operand.extra]

/-- R28: `SP` moves by POP and PUSH only. -/
theorem resolve_sp (d : Operand) (s : State) : (resolve d s).2.sp = s.sp + spMove d := by
  cases d <;> simp [resolve, nextWord, spMove, BitVec.sub_eq_add_neg]

/-! ### Writing a slot (R119) -/

@[simp] theorem writeSlot_skip (d : Slot) (v : Word) (s : State) : (writeSlot d v s).skip = s.skip := by cases d <;> rfl
@[simp] theorem writeSlot_halted (d : Slot) (v : Word) (s : State) : (writeSlot d v s).halted = s.halted := by
  cases d <;> rfl

theorem writeSlot_o (d : Slot) (v : Word) (s : State) (h : d ≠ .ov) : (writeSlot d v s).o = s.o := by
  cases d <;> first | rfl | exact absurd rfl h

theorem writeSlot_sp (d : Slot) (v : Word) (s : State) (h : d ≠ .sp) : (writeSlot d v s).sp = s.sp := by
  cases d <;> first | rfl | exact absurd rfl h

theorem writeSlot_pc (d : Slot) (v : Word) (s : State) (h : d ≠ .pc) : (writeSlot d v s).pc = s.pc := by
  cases d <;> first | rfl | exact absurd rfl h

theorem writeSlot_reg (d : Slot) (v : Word) (s : State) (q : GReg) (h : d ≠ .reg q) :
    (writeSlot d v s).reg q = s.reg q := by
  cases d <;> simp only [writeSlot, State.memWrite_reg, State.setSp_reg, State.setPc_reg, State.setO_reg]
  exact State.setReg_reg_other _ _ _ _ (fun e => h (by rw [e]))

theorem writeSlot_memRead (d : Slot) (v : Word) (s : State) (a : Word) (h : d ≠ .mem a) :
    (writeSlot d v s).memRead a = s.memRead a := by
  cases d <;> simp only [writeSlot, State.setReg_memRead, State.setSp_memRead, State.setPc_memRead, State.setO_memRead]
  exact State.memWrite_memRead_other _ _ _ _ (fun e => h (by rw [e]))

/-- R118, R119: a slot that is not a literal reads as what was written to it. -/
theorem readSlot_writeSlot (d : Slot) (v : Word) (s : State) (h : writable d = true) :
    readSlot d (writeSlot d v s) = v := by
  cases d <;> simp_all [readSlot, writeSlot, writable]

/-- `O` and every other slot are apart (R122 is about the slot `Ov`). -/
theorem readSlot_setO (d : Slot) (v : Word) (s : State) (h : d ≠ .ov) : readSlot d (s.setO v) = readSlot d s := by
  cases d <;> first | rfl | exact absurd rfl h

theorem writeSlot_wf (d : Slot) (v : Word) (s : State) (h : Memory.wf s.mem = true) :
    Memory.wf (writeSlot d v s).mem = true := by
  cases d <;> first | exact h | exact State.memWrite_wf _ _ _ h

/-! ### The operands of a basic instruction (R113, R120) -/

@[simp] theorem basicOperands_regs (oa ob : Operand) (s : State) : (basicOperands oa ob s).state.regs = s.regs := by
  simp [basicOperands]
@[simp] theorem basicOperands_o (oa ob : Operand) (s : State) : (basicOperands oa ob s).state.o = s.o := by
  simp [basicOperands]
@[simp] theorem basicOperands_skip (oa ob : Operand) (s : State) : (basicOperands oa ob s).state.skip = s.skip := by
  simp [basicOperands]
@[simp] theorem basicOperands_halted (oa ob : Operand) (s : State) :
    (basicOperands oa ob s).state.halted = s.halted := by simp [basicOperands]
@[simp] theorem basicOperands_mem (oa ob : Operand) (s : State) : (basicOperands oa ob s).state.mem = s.mem := by
  simp [basicOperands]
@[simp] theorem basicOperands_reg (oa ob : Operand) (s : State) (q : GReg) :
    (basicOperands oa ob s).state.reg q = s.reg q := by simp [basicOperands]
@[simp] theorem basicOperands_memRead (oa ob : Operand) (s : State) (a : Word) :
    (basicOperands oa ob s).state.memRead a = s.memRead a := by simp [basicOperands]

theorem basicOperands_pc (oa ob : Operand) (s : State) :
    (basicOperands oa ob s).state.pc = s.pc + pcMove oa + pcMove ob := by simp [basicOperands, resolve_pc]

theorem basicOperands_sp (oa ob : Operand) (s : State) :
    (basicOperands oa ob s).state.sp = s.sp + spMove oa + spMove ob := by simp [basicOperands, resolve_sp]

theorem basicOperands_slotA (oa ob : Operand) (s : State) : (basicOperands oa ob s).slotA = (resolve oa s).1 := rfl

/-! ### Frames of the shared writes (R122, R150, R180) -/

/-- Resolving both operands and writing operand A's slot changes nothing but that slot, `PC` and `SP`. -/
theorem writeResult_frame (oa ob : Operand) (s : State) (r : Word) :
    Frame oa ob (some (resolve oa s).1) s (writeResult (basicOperands oa ob s) r) := by
  refine ⟨fun q h => ?_, fun h => ?_, fun h => ?_, fun a h => ?_, by simp [writeResult]⟩
  · rw [writeResult, writeSlot_reg _ _ _ _ (fun e => h (by rw [← basicOperands_slotA oa ob s, e])), basicOperands_reg]
  · rw [writeResult, writeSlot_sp _ _ _ (fun e => h (by rw [← basicOperands_slotA oa ob s, e])), basicOperands_sp]
  · rw [writeResult, writeSlot_pc _ _ _ (fun e => h (by rw [← basicOperands_slotA oa ob s, e])), basicOperands_pc]
  · rw [writeResult, writeSlot_memRead _ _ _ _ (fun e => h (by rw [← basicOperands_slotA oa ob s, e])),
      basicOperands_memRead]

/-- `O` is in no frame, so writing it keeps one. -/
theorem frame_setO {oa ob : Operand} {d : Option Slot} {s t : State} (v : Word) (h : Frame oa ob d s t) :
    Frame oa ob d s (t.setO v) := ⟨h.reg, h.sp, h.pc, h.mem, h.halted⟩

theorem writeResultThenO_frame (oa ob : Operand) (s : State) (r ov : Word) :
    Frame oa ob (some (resolve oa s).1) s (writeResultThenO (basicOperands oa ob s) r ov) :=
  frame_setO ov (writeResult_frame oa ob s r)

/-- Writing `O` first or last differs in `O` alone. -/
theorem writeOThenResult_setO (x : BasicOperands) (r ov : Word) :
    (writeOThenResult x r ov).setO ov = writeResultThenO x r ov := by
  cases x with
  | mk dA dB a b st => cases dA <;> rfl

theorem writeOThenResult_frame (oa ob : Operand) (s : State) (r ov : Word) :
    Frame oa ob (some (resolve oa s).1) s (writeOThenResult (basicOperands oa ob s) r ov) := by
  have h := writeResultThenO_frame oa ob s r ov
  rw [← writeOThenResult_setO] at h
  exact ⟨h.reg, h.sp, h.pc, h.mem, h.halted⟩

/-- The resolved state itself: nothing is written. -/
theorem basicOperands_frame (oa ob : Operand) (s : State) : Frame oa ob none s (basicOperands oa ob s).state :=
  ⟨fun q _ => basicOperands_reg oa ob s q, fun _ => basicOperands_sp oa ob s, fun _ => basicOperands_pc oa ob s,
    fun a _ => basicOperands_memRead oa ob s a, basicOperands_halted oa ob s⟩

end Sys2Proof.Machine
end

