-- ==== Sys2Proof/Laws/Exec.lean ====
section
/-! SUPPORT. Inversion: everything an instruction and a step can do, said once. -/

namespace Sys2Proof.Machine

open Sys2Proof.Safety

@[simp] theorem skipStep_regs (s : State) : (skipStep s).regs = s.regs := rfl
@[simp] theorem skipStep_sp (s : State) : (skipStep s).sp = s.sp := rfl
@[simp] theorem skipStep_o (s : State) : (skipStep s).o = s.o := rfl
@[simp] theorem skipStep_skip (s : State) : (skipStep s).skip = false := rfl
@[simp] theorem skipStep_halted (s : State) : (skipStep s).halted = s.halted := rfl
@[simp] theorem skipStep_mem (s : State) : (skipStep s).mem = s.mem := rfl
@[simp] theorem skipStep_reg (s : State) (q : GReg) : (skipStep s).reg q = s.reg q := rfl
@[simp] theorem skipStep_memRead (s : State) (a : Word) : (skipStep s).memRead a = s.memRead a := rfl

/-- R180: what an IF leaves besides `skip` is the resolved state. -/
theorem skipUnless_setSkip (holds : Word → Word → Bool) (oa ob : Operand) (s : State) (f : Bool) :
    (skipUnless holds oa ob s).setSkip f = (basicOperands oa ob s).state.setSkip f := by
  simp only [skipUnless]; split <;> rfl

theorem skipUnless_skip (holds : Word → Word → Bool) (oa ob : Operand) (s : State) :
    (skipUnless holds oa ob s).skip
      = if holds (basicOperands oa ob s).a (basicOperands oa ob s).b then s.skip else true := by
  simp only [skipUnless]; split <;> simp

/-- An IF changes no field but `skip` from the resolved state. -/
theorem skipUnless_cases (holds : Word → Word → Bool) (oa ob : Operand) (s : State) :
    skipUnless holds oa ob s = (basicOperands oa ob s).state
      ∨ skipUnless holds oa ob s = (basicOperands oa ob s).state.setSkip true := by
  simp only [skipUnless]; split <;> simp

/-- R27: a push moves `SP` down by one and stores there. -/
theorem push_sp (v : Word) (s : State) : (push v s).sp = s.sp - 1 := rfl
theorem push_mem (v : Word) (s : State) : (push v s).mem = Memory.write s.mem (s.sp - 1) v := rfl
@[simp] theorem push_regs (v : Word) (s : State) : (push v s).regs = s.regs := rfl
@[simp] theorem push_reg (v : Word) (s : State) (q : GReg) : (push v s).reg q = s.reg q := rfl
@[simp] theorem push_pc (v : Word) (s : State) : (push v s).pc = s.pc := rfl
@[simp] theorem push_o (v : Word) (s : State) : (push v s).o = s.o := rfl
@[simp] theorem push_skip (v : Word) (s : State) : (push v s).skip = s.skip := rfl
@[simp] theorem push_halted (v : Word) (s : State) : (push v s).halted = s.halted := rfl

theorem push_memRead (v : Word) (s : State) (a : Word) :
    (push v s).memRead a = if a = s.sp - 1 then v else s.memRead a := by
  simp only [State.memRead, push_mem, Memory.read_write]

/-- An instruction that goes on does one of five things. -/
theorem exec_cases {i : Instr} {s t : State} (h : exec i s = .next t) :
    (∃ oa ob r, destination i = some oa ∧ resolvedOperands i = [oa, ob] ∧ writesOverflow i = false
      ∧ t = writeResult (basicOperands oa ob s) r) ∨
    (∃ oa ob r ov, destination i = some oa ∧ resolvedOperands i = [oa, ob] ∧ writesOverflow i = true
      ∧ (t = writeResultThenO (basicOperands oa ob s) r ov ∨ t = writeOThenResult (basicOperands oa ob s) r ov)) ∨
    (∃ holds oa ob, condition i = some (holds, oa, ob) ∧ t = skipUnless holds oa ob s) ∨
    (∃ oa, i = .jsr oa ∧ t = jsrResolveThenPush oa s) ∨
    (∃ ext oa, i = .undefExt ext oa ∧ t = raiseHalt s) := by
  cases i with
  | set a b => cases h; exact .inl ⟨a, b, _, rfl, rfl, rfl, rfl⟩
  | add a b => cases h; exact .inr (.inl ⟨a, b, _, _, rfl, rfl, rfl, .inl rfl⟩)
  | sub a b => cases h; exact .inr (.inl ⟨a, b, _, _, rfl, rfl, rfl, .inl rfl⟩)
  | mul a b => cases h; exact .inr (.inl ⟨a, b, _, _, rfl, rfl, rfl, .inl rfl⟩)
  | div a b =>
    simp only [exec, execDiv, execDivWith] at h
    split at h <;> cases h
    · exact .inr (.inl ⟨a, b, _, _, rfl, rfl, rfl, .inl rfl⟩)
    · exact .inr (.inl ⟨a, b, _, _, rfl, rfl, rfl, .inr rfl⟩)
  | mod a b => cases h; exact .inl ⟨a, b, _, rfl, rfl, rfl, rfl⟩
  | shl a b => cases h; exact .inr (.inl ⟨a, b, _, _, rfl, rfl, rfl, .inl rfl⟩)
  | shr a b => cases h; exact .inr (.inl ⟨a, b, _, _, rfl, rfl, rfl, .inl rfl⟩)
  | and a b => cases h; exact .inl ⟨a, b, _, rfl, rfl, rfl, rfl⟩
  | bor a b => cases h; exact .inl ⟨a, b, _, rfl, rfl, rfl, rfl⟩
  | xor a b => cases h; exact .inl ⟨a, b, _, rfl, rfl, rfl, rfl⟩
  | ife a b => cases h; exact .inr (.inr (.inl ⟨_, a, b, rfl, rfl⟩))
  | ifn a b => cases h; exact .inr (.inr (.inl ⟨_, a, b, rfl, rfl⟩))
  | ifg a b => cases h; exact .inr (.inr (.inl ⟨_, a, b, rfl, rfl⟩))
  | ifb a b => cases h; exact .inr (.inr (.inl ⟨_, a, b, rfl, rfl⟩))
  | jsr a => cases h; exact .inr (.inr (.inr (.inl ⟨a, rfl, rfl⟩)))
  | undefExt ext a => cases h; exact .inr (.inr (.inr (.inr ⟨ext, a, rfl, rfl⟩)))

/-- A step that goes on is a skip step or the execution of the fetched instruction. -/
theorem step_cases {s t : State} (h : step s = .next t) :
    s.halted = false ∧
      ((s.skip = true ∧ t = skipStep s) ∨
        (s.skip = false ∧ exec (decode (s.memRead s.pc)) (s.setPc (s.pc + 1)) = .next t)) := by
  unfold step at h
  split at h
  · cases h
  · rename_i hh
    refine ⟨by simpa using hh, ?_⟩
    split at h
    · rename_i hs; cases h; exact .inl ⟨hs, rfl⟩
    · rename_i hs; exact .inr ⟨by simpa using hs, h⟩

end Sys2Proof.Machine
end

