-- ==== Sys2Proof/Laws/PerInstr.lean ====
section
/-! SUPPORT. Statements made per instruction, one lemma for each constructor of `Instr`.
`Length`: the length read off an instruction's first word (R76, as the skip step needs it) is the instruction's length. -/

namespace Sys2Proof.Laws.Length

/-- R76: the first word tells the instruction's length. -/
def Statement (i : Instr) : Prop := i.wellFormed = true → lengthOfWord (encodeFirst i) = i.length

/-- The basic format: a nonzero opcode field and two operands. -/
theorem basic (op : BitVec 4) (h : op ≠ 0#4) (a b : Operand) :
    lengthOfWord (encodeBasic op a b) = 1 + (a.extra + b.extra) := by
  simp [lengthOfWord, encodeBasic, h, Nat.add_assoc]

theorem set (a b : Operand) : Statement (.set a b) := fun _ => basic _ (by decide) a b
theorem add (a b : Operand) : Statement (.add a b) := fun _ => basic _ (by decide) a b
theorem sub (a b : Operand) : Statement (.sub a b) := fun _ => basic _ (by decide) a b
theorem mul (a b : Operand) : Statement (.mul a b) := fun _ => basic _ (by decide) a b
theorem div (a b : Operand) : Statement (.div a b) := fun _ => basic _ (by decide) a b
theorem mod (a b : Operand) : Statement (.mod a b) := fun _ => basic _ (by decide) a b
theorem shl (a b : Operand) : Statement (.shl a b) := fun _ => basic _ (by decide) a b
theorem shr (a b : Operand) : Statement (.shr a b) := fun _ => basic _ (by decide) a b
theorem and (a b : Operand) : Statement (.and a b) := fun _ => basic _ (by decide) a b
theorem bor (a b : Operand) : Statement (.bor a b) := fun _ => basic _ (by decide) a b
theorem xor (a b : Operand) : Statement (.xor a b) := fun _ => basic _ (by decide) a b
theorem ife (a b : Operand) : Statement (.ife a b) := fun _ => basic _ (by decide) a b
theorem ifn (a b : Operand) : Statement (.ifn a b) := fun _ => basic _ (by decide) a b
theorem ifg (a b : Operand) : Statement (.ifg a b) := fun _ => basic _ (by decide) a b
theorem ifb (a b : Operand) : Statement (.ifb a b) := fun _ => basic _ (by decide) a b

theorem jsr (a : Operand) : Statement (.jsr a) := fun _ => by
  simp [lengthOfWord, encodeFirst, encodeExtended, Instr.length, Instr.extraWords]

theorem undefExt (ext : BitVec 6) (a : Operand) : Statement (.undefExt ext a) := fun h => by
  have : ext ≠ 1#6 := by simpa [Instr.wellFormed, undefinedExt] using h
  simp [lengthOfWord, encodeFirst, encodeExtended, Instr.length, Instr.extraWords, this]

end Sys2Proof.Laws.Length
end

