-- ==== Sys2Proof/Tests/Slice0.lean ====
section
/-! SUPPORT. The model's own tests: the check of WellFormed, decoding of words written out from the spec's encodings, one-step
vectors of spec/95_test_vectors.md (each named in its comment), and a witness for every statement that has hypotheses. -/

namespace Sys2Proof.Tests

open Sys2Proof.Machine Sys2Proof.Safety

/-! ### WellFormed -/

/-- R82: extended opcode 0x01 is JSR, so a term that calls it undefined is ill formed. -/
theorem test_wellFormed_refuses_ext_one : (Instr.undefExt 0x01 (.lit 0)).wellFormed = false := by decide

/-! ### Decoding, bit by bit: `bbbbbb aaaaaa oooo`, `aaaaaa eeeeee 0000` (R70, R71, R73, R81, R82) -/

theorem test_decode_set : decode 0b0111110000000001 = .set (.reg .A) .next := by decide
theorem test_decode_add : decode 0b1000110111000010 = .add .pc (.lit 3) := by decide
theorem test_decode_sub : decode 0b1000010001100011 = .sub (.reg .I) (.lit 1) := by decide
theorem test_decode_mul : decode 0b0110010110000100 = .mul .pop .peek := by decide
theorem test_decode_div : decode 0b1000100111010101 = .div .ov (.lit 2) := by decide
theorem test_decode_mod : decode 0b0011110001110110 = .mod (.reg .J) (.ind .J) := by decide
theorem test_decode_shl : decode 0b0111010000000111 = .shl (.reg .A) .ov := by decide
theorem test_decode_shr : decode 0b1111110010101000 = .shr (.ind .C) (.lit 31) := by decide
theorem test_decode_and : decode 0b0101110100111001 = .and (.idx .X) (.idx .J) := by decide
theorem test_decode_bor : decode 0b0111100111111010 = .bor .next .memNext := by decide
theorem test_decode_xor : decode 0b0000000000001011 = .xor (.reg .A) (.reg .A) := by decide
theorem test_decode_ife : decode 0b1000000110001100 = .ife .pop (.lit 0) := by decide
theorem test_decode_ifn : decode 0b1000000001101101 = .ifn (.reg .I) (.lit 0) := by decide
theorem test_decode_ifg : decode 0b0001101000111110 = .ifg (.lit 3) (.reg .I) := by decide
theorem test_decode_ifb : decode 0b0110110110101111 = .ifb .push .sp := by decide
theorem test_decode_jsr : decode 0b0110000000010000 = .jsr .pop := by decide
theorem test_decode_undefExt : decode 0b0111110000100000 = .undefExt 0x02 .next := by decide

/-- 30_encoding.md R92: `SET PC, POP` is 0x61C1. -/
theorem test_encode_return : encodeFirst (.set .pc .pop) = 0x61C1 := by decide

theorem test_decodeTableWord_jsr : decodeTableWord 16 0x0010 = some (.jsr (.reg .A)) := by decide

/-! ### One step on small states -/

/-- Reset, with `ws` stored from `p` on and `PC` there. -/
def at_ (p : Word) (ws : List Word) : State := (State.reset.setPc p).storeWords p ws

/-- What the step leaves, read by `f`. -/
def after {α : Type} (s : State) (f : State → α) : Option α := (nextState? (step s)).map f

/-- Registers A and B, and `O`, set; a basic instruction on A and B; then A and `O`. -/
def alu (i : Instr) (a b o : Word) : Option (Word × Word) :=
  (nextState? (exec i (((State.reset.setReg .A a).setReg .B b).setO o))).map (fun t => (t.reg .A, t.o))

/-- V-RST. -/
theorem test_reset_first_step : after State.reset (fun t => (t.halted, t.pc, t.sp)) = some (true, 0x0001, 0xFFFF) := by
  decide

/-- V-STEP-4: A's extra word comes first. -/
theorem test_set_indexed : after ((at_ 0 [0x7D01, 0x2000, 0x0777]).setReg .A 3) (fun t => (t.memRead 0x2003, t.pc))
    = some (0x0777, 0x0003) := by decide

/-- V-STEP-3: the extra word is at 0xFFFF and `PC` wraps. -/
theorem test_set_wraps : after (at_ 0xFFFE [0x7C01, 0x4321]) (fun t => (t.reg .A, t.pc)) = some (0x4321, 0x0000) := by decide

/-- V-ALU-P3: a write to the extra word; `PC` reads as the address after the instruction. -/
theorem test_add_next_pc : after (at_ 0x20 [0x71F2, 0x0000]) (fun t => (t.memRead 0x21, t.pc, t.o))
    = some (0x0022, 0x0022, 0x0000) := by decide

/-- V-ALU-L2: the write is discarded and the carry is not. -/
theorem test_add_literal : after (at_ 0 [0x7FF2, 0xFFFF]) (fun t => (t.regs, t.o, t.pc))
    = some (GRegs.reset, 0x0001, 0x0002) := by decide

/-- V-ALU-O3. -/
theorem test_sub_o : after (at_ 0 [0x85D3]) (fun t => t.o) = some 0xFFFF := by decide

/-- SUB 0x8000, 0x8001 (§2.4). -/
theorem test_sub_borrow : alu (.sub (.reg .A) (.reg .B)) 0x8000 0x8001 0 = some (0xFFFF, 0xFFFF) := by decide

/-- V-ALU-S2: operand B sees the `SP` that operand A's POP left. -/
theorem test_mul_pop_peek : after (((at_ 0 [0x6584]).setSp 0x8000).storeWords 0x8000 [6, 2])
    (fun t => (t.memRead 0x8000, t.sp, t.o)) = some (0x000C, 0x8001, 0x0000) := by decide

/-- MUL 0xFFFF, 0xFFFF (§2.4). -/
theorem test_mul_high : alu (.mul (.reg .A) (.reg .B)) 0xFFFF 0xFFFF 0 = some (0x0001, 0xFFFE) := by decide

/-- V-ALU-O2: the fraction first, the quotient last. -/
theorem test_div_o : after ((at_ 0 [0x89D5]).setO 9) (fun t => t.o) = some 0x0004 := by decide

/-- DIV 0x8000, 0x0003 (§2.4): exact, not 32-bit signed. -/
theorem test_div_fraction : alu (.div (.reg .A) (.reg .B)) 0x8000 3 0 = some (0x2AAA, 0xAAAA) := by decide

/-- MOD 0x0007, 0x0000 (§2.4): 0, and `O` unchanged. -/
theorem test_mod_zero : alu (.mod (.reg .A) (.reg .B)) 7 0 0x1111 = some (0x0000, 0x1111) := by decide

/-- SHL 0x0001, 0x001F (§2.4). -/
theorem test_shl_31 : alu (.shl (.reg .A) (.reg .B)) 1 0x1F 0 = some (0x0000, 0x8000) := by decide

/-- V-ALU-O4: the count is read from `O` before `O` is written. -/
theorem test_shl_by_o : after (((at_ 0 [0x7407]).setO 3).setReg .A 0x10) (fun t => (t.reg .A, t.o))
    = some (0x0080, 0x0000) := by decide

/-- SHR 0x8000, 0x0014 (§2.4): no sign fill. -/
theorem test_shr_20 : alu (.shr (.reg .A) (.reg .B)) 0x8000 0x14 0 = some (0x0000, 0x0800) := by decide

/-- SHR 0xFF00, 0x000C (§2.4). -/
theorem test_shr_12 : alu (.shr (.reg .A) (.reg .B)) 0xFF00 12 0 = some (0x000F, 0xF000) := by decide

/-- AND, BOR, XOR (§2.4): `O` unchanged. -/
theorem test_and : alu (.and (.reg .A) (.reg .B)) 0xF0F0 0x3C3C 7 = some (0x3030, 7) := by decide
theorem test_bor : alu (.bor (.reg .A) (.reg .B)) 0xF0F0 0x3C3C 7 = some (0xFCFC, 7) := by decide
theorem test_xor : alu (.xor (.reg .A) (.reg .B)) 0xF0F0 0x3C3C 7 = some (0xCCCC, 7) := by decide

/-- V-IF-1: POP happens though the IF then skips. -/
theorem test_ife_pop : after (((at_ 0 [0x818C]).setSp 0x8000).storeWords 0x8000 [3]) (fun t => (t.sp, t.skip))
    = some (0x8001, true) := by decide

/-- IFN 0x0000, 0x0001 (§2.5). -/
theorem test_ifn : after ((at_ 0 [0x841D]).setReg .B 0) (fun t => t.skip) = some false := by decide

/-- IFG 0x8000, 0x7FFF (§2.5): unsigned. -/
theorem test_ifg_unsigned : after (at_ 0 [0x7DFE, 0x8000, 0x7FFF]) (fun t => (t.skip, t.pc)) = some (false, 3) := by decide

/-- IFB 0x0011, 0x0022 (§2.5). -/
theorem test_ifb : after ((at_ 0 [0x7C0F, 0x0022]).setReg .A 0x11) (fun t => t.skip) = some true := by decide

/-- V-JSR-5: `JSR PUSH` moves `SP` twice. -/
theorem test_jsr_push : after (((at_ 0x100 [0x6810]).setSp 0x8000).storeWords 0x7FFF [0x500])
    (fun t => (t.pc, t.sp, t.memRead 0x7FFE)) = some (0x0500, 0x7FFE, 0x0101) := by decide

/-- V-JSR-10: under PushThenResolve the pushed address is that of the extra word. -/
theorem test_jsr_push_first : (nextState? (execJsrWith .pushThenResolve .next (((at_ 0x100 [0x7C10, 0x200]).setSp 0x8000).setPc
    0x101))).map (fun t => (t.pc, t.sp, t.memRead 0x7FFF)) = some (0x0200, 0x7FFF, 0x0101) := by decide

/-- §2.7, word 0x6000: halts without popping. -/
theorem test_undefExt_pop : after ((at_ 0x100 [0x6000]).setSp 0x8000) (fun t => (t.halted, t.pc, t.sp))
    = some (true, 0x0101, 0x8000) := by decide

/-- V-SKIP-7: a skipped three-word instruction across the end of memory. -/
theorem test_skip_wraps : after ((at_ 0xFFFF [0x7D01]).setSkip true) (fun t => (t.pc, t.skip)) = some (0x0002, false) := by
  decide

/-- V-SKIP-6: a skipped undefined extended word is one word long and does not halt. -/
theorem test_skip_undefined : after ((at_ 0x10 [0x7C00]).setSkip true) (fun t => (t.pc, t.halted)) = some (0x0011, false) := by
  decide

/-- V-HALTED. -/
theorem test_halted_no_step : nextState? (step (State.reset.setHalted true)) = none := by decide

/-- The port sees the fetch, both extra words (A's first), the slot reads (A's first), then the write (R60). -/
theorem test_port_order : portTrace (at_ 0 [0x5961, 0x2000, 0x1000])
    = [.read 0 0x5961, .read 1 0x2000, .read 2 0x1000, .read 0x2000 0, .read 0x1000 0, .write 0x2000 0] := by decide

/-! ### Witnesses: the hypotheses of each statement that has some can be met together -/

/-- `SET A, 1` at the top of memory. -/
def setA : State := at_ 0xFFFF [0x8401]
/-- `IFE A, 1` with A = 0: the condition fails. -/
def ifFails : State := at_ 0 [0x840C]
/-- `JSR PEEK`. -/
def call : State := at_ 0 [0x6410]
/-- `SET PC, POP` at 0x10, with the stack as `call` leaves it. -/
def ret : State := ((at_ 0x10 [0x61C1]).setSp 0xFFFE).memWrite 0xFFFE 1

theorem witness_DecodeAfterEncodeGivesTheInstruction :
    (Instr.set (.idx .J) .next).wellFormed = true ∧ [0xFFFF, (0 : Word)].length = (Instr.set (.idx .J) .next).extraWords ∧
    (Instr.undefExt 0x3F (.lit 31)).wellFormed = true ∧ ([] : List Word).length = (Instr.undefExt 0x3F (.lit 31)).extraWords := by
  decide
theorem witness_OpcodeMapDecodesEveryPattern : (0x00#6 ≠ 0b000001#6) ∧ (0x3F#6 ≠ 0b000001#6) := by decide
/-- Both formats, at both ends of the extended one. -/
theorem witness_DecodeTakesTheFieldsOfTheWord :
    (0x0000#16 &&& 0xF = 0) ∧ (0xFFF0#16 &&& 0xF = 0) ∧ (0x0001#16 &&& 0xF ≠ 0) ∧ (0xFFFF#16 &&& 0xF ≠ 0) := by decide
/-- SlotsReadAndWriteTheirLocations: another register, and another address at the edge of memory. -/
theorem witness_SlotsReadAndWriteTheirLocations : GReg.J ≠ .A ∧ (0x0000#16 ≠ 0xFFFF#16) := by decide
theorem witness_OperandAResolvesBeforeOperandB :
    Operand.next.extra = 1 ∧ (Operand.idx .J).extra = 1 ∧
    (basicOperands .push .next State.reset).slotA = .mem 0xFFFE ∧ (basicOperands .sp .push State.reset).slotB = .mem 0xFFFE ∧
    (basicOperands (.reg .J) (.reg .J) State.reset).slotA = (basicOperands (.reg .J) (.reg .J) State.reset).slotB ∧
    (basicOperands .push .pop State.reset).slotA = (basicOperands .push .pop State.reset).slotB := by decide
theorem witness_CanonicalMemoriesThatReadAlikeAreEqual :
    ∃ m m' : Memory, Memory.wf m = true ∧ Memory.wf m' = true ∧ ∀ a, Memory.read m a = Memory.read m' a :=
  ⟨[(0, 1), (65535, 2)], [(0, 1), (65535, 2)], by decide, by decide, fun _ => rfl⟩
/-- The clauses of WritesResult and its two variants: each kind of destination slot occurs. -/
theorem witness_destinations :
    writable (resolve (.reg .J) State.reset).1 = true ∧ writable (resolve .push State.reset).1 = true ∧
    writable (resolve .sp State.reset).1 = true ∧ writable (resolve .pc State.reset).1 = true ∧
    writable (resolve .ov State.reset).1 = true ∧ writable (resolve (.lit 31) State.reset).1 = false ∧
    (resolve (.reg .J) State.reset).1 ≠ .ov ∧ (resolve .ov State.reset).1 = .ov := by decide
theorem witness_ResultAndOverflowTogetherAreExact : (16#16).toNat ≤ 16 ∧ (1#16 ≠ 0) ∧ (0xFFFF#16 ≠ 0) := by decide
/-- Each range of the shift count, at both ends. -/
theorem witness_ShiftCountCorners :
    (0#16 = 0) ∧ ¬(1#16 = 0) ∧ (15#16).toNat < 16 ∧ ¬(16#16).toNat < 16 ∧ (31#16).toNat < 32 ∧ ¬(32#16).toNat < 32 ∧
    ¬(0xFFFF#16).toNat < 32 := by decide
theorem witness_OperandsNamingOneLocation :
    (basicOperands (.ind .A) .pop (State.reset.setReg .A 0xFFFF)).slotA
      = (basicOperands (.ind .A) .pop (State.reset.setReg .A 0xFFFF)).slotB := by decide
theorem witness_SetPushPopChangesNothing : Memory.wf setA.mem = true := by decide
theorem witness_ReturnByPopUndoesTheCall :
    ∃ s t u v, s.skip = false ∧ isJsr (decode (wordAtPc s)) = true ∧ step s = .next t ∧ u.skip = false ∧ u.sp = t.sp ∧
      u.memRead t.sp = t.memRead t.sp ∧ wordAtPc u = 0x61C1 ∧ step u = .next v :=
  ⟨call, _, ret, _, by decide, by decide, rfl, by decide, by decide, by decide, by decide, rfl⟩
theorem witness_StepRunsTheDecodedInstruction :
    setA.halted = false ∧ setA.skip = false ∧ decode (setA.memRead setA.pc) = .set (.reg .A) (.lit 1) := by decide
theorem witness_PlacedWordIsTheNextInstructionRun : decodeTableWord 16 0x7C01 = some (.set (.reg .A) .next) := by decide
theorem witness_SkipStepAdvancesPastTheInstruction :
    (setA.setSkip true).halted = false ∧ (setA.setSkip true).skip = true := by decide
theorem witness_StepGoesOnExactlyWhenNotHalted :
    (State.reset.setHalted true).halted = true ∧ State.reset.halted = false := by decide
theorem witness_HaltIsPreciseAndTerminal :
    (at_ 0xFFFF [0x03F0]).halted = false ∧ (at_ 0xFFFF [0x03F0]).skip = false ∧
    haltingWord (wordAtPc (at_ 0xFFFF [0x03F0])) = true := by decide
theorem witness_PcEndsPastTheBasicInstruction :
    ∃ t, step setA = .next t ∧ setA.skip = false ∧ (resolvedOperands (decode (wordAtPc setA))).length = 2 ∧
      destination (decode (wordAtPc setA)) ≠ some .pc := ⟨_, rfl, by decide, by decide, by decide⟩
theorem witness_FailedIfSkipsExactlyOneInstruction : ∃ t, step ifFails = .next t ∧ t.skip = true := ⟨_, rfl, by decide⟩
theorem witness_RegistersChangeOnlyAsDestinations : ∃ t, step setA = .next t ∧ t.reg .A ≠ setA.reg .A := ⟨_, rfl, by decide⟩
theorem witness_StackPointerMovesOnlyByStackOperands :
    (∃ t, step (setA.setSkip true) = .next t ∧ (setA.setSkip true).skip = true) ∧
    (∃ t, step call = .next t ∧ call.skip = false ∧ destination (decode (wordAtPc call)) ≠ some .sp) :=
  ⟨⟨_, rfl, by decide⟩, ⟨_, rfl, by decide, by decide⟩⟩
theorem witness_OverflowRegisterChangesOnlyByItsWriters :
    (∃ t, step (at_ 0 [0x85D3]) = .next t ∧ t.o ≠ (at_ 0 [0x85D3]).o) ∧
    (∃ t, step (at_ 0 [0x85D1]) = .next t ∧ t.o ≠ (at_ 0 [0x85D1]).o) := ⟨⟨_, rfl, by decide⟩, ⟨_, rfl, by decide⟩⟩
/-- SkipIsSetOnlyByFailedIfs: a step that sets `skip`, and one that clears it. -/
theorem witness_SkipIsSetOnlyByFailedIfs :
    (∃ t, step ifFails = .next t ∧ t.skip = true) ∧ (∃ t, step (ifFails.setSkip true) = .next t ∧ t.skip = false) :=
  ⟨⟨_, rfl, by decide⟩, ⟨_, rfl, by decide⟩⟩
theorem witness_HaltedIsSetOnlyByUndefinedExtendedWords :
    (∃ t, step State.reset = .next t ∧ t.halted = true) ∧ (∃ t, step setA = .next t ∧ t.halted = false) :=
  ⟨⟨_, rfl, by decide⟩, ⟨_, rfl, by decide⟩⟩
theorem witness_PortWritesAccountForMemory : ∃ t, step call = .next t ∧ t.mem ≠ call.mem := ⟨_, rfl, by decide⟩
theorem witness_PortReadsComeBeforeTheOneWrite : call.halted = false := by decide
theorem witness_StepKeepsTheMachineInvariant : ∃ t, Inv call ∧ step call = .next t :=
  ⟨_, ⟨by decide, by decide, by decide⟩, rfl⟩
theorem witness_BlockAnswersItsHost :
    ({ machine := call, running := true } : Block).running = true ∧ Block.initial.running = false ∧
    haltedOutput { machine := State.reset.setHalted true, running := true } = true ∧ haltedOutput Block.initial = false := by
  decide
theorem witness_InspectionShowsTheWholeState :
    ∃ s t : State, Memory.wf s.mem = true ∧ Memory.wf t.mem = true ∧ ∀ f, inspect f s = inspect f t :=
  ⟨call, call, by decide, by decide, fun _ => rfl⟩
/-- DrivingLoopEndsAtHalted: a machine with a step to take, a halted one, and a loop that reaches `halted`. -/
theorem witness_DrivingLoopEndsAtHalted :
    (∃ t, State.reset.halted = false ∧ step State.reset = .next t) ∧ (State.reset.setHalted true).halted = true ∧
    (drive 1 State.reset).halted = true ∧ 1 ≤ 2 := ⟨⟨_, rfl, rfl⟩, by decide, by decide, by decide⟩

end Sys2Proof.Tests
end

section
/-! PROOFS of the family "state" (10_state.md): what each field of the state changes with, what the memory port says of a
step, and the reset, inspection and polling rules. First the facts about the model that they share, then the obligations. -/

namespace Sys2Proof.Machine

open Sys2Proof.Safety

/-! ### What kind of instruction it is -/

/-- R180: an IF resolves its two operands and has no destination. -/
theorem kinds_of_condition {i : Instr} {holds : Word → Word → Bool} {oa ob : Operand}
    (h : condition i = some (holds, oa, ob)) :
    destination i = none ∧ resolvedOperands i = [oa, ob] ∧ isJsr i = false := by
  cases i <;> cases h <;> exact ⟨rfl, rfl, rfl⟩

/-- An instruction with a destination is neither an IF nor a JSR. -/
theorem kinds_of_destination {i : Instr} {oa : Operand} (h : destination i = some oa) :
    condition i = none ∧ isJsr i = false := by
  cases i <;> cases h <;> exact ⟨rfl, rfl⟩

/-- R83: a halting word is one that decodes to an undefined extended instruction. -/
theorem haltingWord_iff (w : Word) : haltingWord w = true ↔ ∃ ext oa, decode w = .undefExt ext oa := by
  unfold haltingWord
  cases decode w <;> simp

/-! ### Only the operand that names a register resolves to it (R101, R107, R109) -/

theorem resolve_slot_eq_reg {o : Operand} {s : State} {r : GReg} : (resolve o s).1 = .reg r ↔ o = .reg r := by
  cases o <;> simp [resolve]

theorem resolve_slot_eq_sp {o : Operand} {s : State} : (resolve o s).1 = .sp ↔ o = .sp := by
  cases o <;> simp [resolve]

theorem resolve_slot_eq_ov {o : Operand} {s : State} : (resolve o s).1 = .ov ↔ o = .ov := by
  cases o <;> simp [resolve]

/-! ### The fields that an instruction's shared writes leave -/

@[simp] theorem writeResult_skip (x : BasicOperands) (r : Word) : (writeResult x r).skip = x.state.skip :=
  writeSlot_skip _ _ _

@[simp] theorem writeResultThenO_skip (x : BasicOperands) (r ov : Word) :
    (writeResultThenO x r ov).skip = x.state.skip := writeSlot_skip _ _ _

@[simp] theorem writeOThenResult_skip (x : BasicOperands) (r ov : Word) :
    (writeOThenResult x r ov).skip = x.state.skip := writeSlot_skip _ _ _

@[simp] theorem writeResultThenO_mem (x : BasicOperands) (r ov : Word) :
    (writeResultThenO x r ov).mem = (writeResult x r).mem := rfl

@[simp] theorem writeOThenResult_mem (x : BasicOperands) (r ov : Word) :
    (writeOThenResult x r ov).mem = (writeResult x r).mem := by
  rw [← writeResultThenO_mem x r ov, ← writeOThenResult_setO, State.setO_mem]

theorem skipUnless_frame (holds : Word → Word → Bool) (oa ob : Operand) (s : State) :
    Frame oa ob none s (skipUnless holds oa ob s) := by
  have hf := basicOperands_frame oa ob s
  rcases skipUnless_cases holds oa ob s with h | h <;> rw [h]
  · exact hf
  · exact ⟨hf.reg, hf.sp, hf.pc, hf.mem, hf.halted⟩

@[simp] theorem skipUnless_o (holds : Word → Word → Bool) (oa ob : Operand) (s : State) :
    (skipUnless holds oa ob s).o = s.o := by
  rcases skipUnless_cases holds oa ob s with h | h <;> simp [h]

@[simp] theorem skipUnless_mem (holds : Word → Word → Bool) (oa ob : Operand) (s : State) :
    (skipUnless holds oa ob s).mem = s.mem := by
  rcases skipUnless_cases holds oa ob s with h | h <;> simp [h]

/-! ### What an instruction does to each field -/

/-- Every instruction has a meaning in every state. -/
theorem exec_total (i : Instr) (s : State) : ∃ t, exec i s = .next t := by
  cases i <;> exact ⟨_, rfl⟩

/-- A basic instruction keeps its frame; the other instructions are JSR and the undefined extended ones. -/
theorem exec_frame {i : Instr} {s t : State} (h : exec i s = .next t) :
    (∃ oa ob, resolvedOperands i = [oa, ob] ∧ isJsr i = false
      ∧ Frame oa ob ((destination i).map fun d => (resolve d s).1) s t) ∨
    (∃ oa, i = .jsr oa ∧ t = jsrResolveThenPush oa s) ∨
    (∃ ext oa, i = .undefExt ext oa ∧ t = raiseHalt s) := by
  rcases exec_cases h with ⟨oa, ob, r, hd, hops, -, rfl⟩ | ⟨oa, ob, r, ov, hd, hops, -, ht⟩ | ⟨holds, oa, ob, hc, rfl⟩ |
    hjsr | hundef
  · refine .inl ⟨oa, ob, hops, (kinds_of_destination hd).2, ?_⟩
    rw [hd]
    exact writeResult_frame oa ob s r
  · refine .inl ⟨oa, ob, hops, (kinds_of_destination hd).2, ?_⟩
    rw [hd]
    rcases ht with rfl | rfl
    · exact writeResultThenO_frame oa ob s r ov
    · exact writeOThenResult_frame oa ob s r ov
  · obtain ⟨hd, hops, hj⟩ := kinds_of_condition hc
    refine .inl ⟨oa, ob, hops, hj, ?_⟩
    rw [hd]
    exact skipUnless_frame holds oa ob s
  · exact .inr (.inl hjsr)
  · exact .inr (.inr hundef)

/-- R22. -/
theorem exec_reg {i : Instr} {s t : State} {r : GReg} (h : exec i s = .next t)
    (hd : destination i ≠ some (.reg r)) : t.reg r = s.reg r := by
  rcases exec_frame h with ⟨oa, ob, -, -, hf⟩ | ⟨oa, -, rfl⟩ | ⟨ext, oa, -, rfl⟩
  · exact hf.reg r (by simpa [resolve_slot_eq_reg] using hd)
  · simp [jsrResolveThenPush]
  · rfl

/-- R28. -/
theorem exec_sp {i : Instr} {s t : State} (h : exec i s = .next t) (hd : destination i ≠ some .sp) :
    t.sp = s.sp + ((resolvedOperands i).map spMove).sum - (if isJsr i then 1 else 0) := by
  rcases exec_frame h with ⟨oa, ob, hops, hj, hf⟩ | ⟨oa, rfl, rfl⟩ | ⟨ext, oa, rfl, rfl⟩
  · have hsp := hf.sp (by simpa [resolve_slot_eq_sp] using hd)
    simp [hsp, hops, hj, BitVec.add_assoc]
  · simp [jsrResolveThenPush, push_sp, resolve_sp, resolvedOperands, isJsr]
  · simp [raiseHalt, resolvedOperands, isJsr]

/-- R29. -/
theorem exec_o {i : Instr} {s t : State} (h : exec i s = .next t) (hw : writesOverflow i = false)
    (hd : destination i ≠ some .ov) : t.o = s.o := by
  rcases exec_cases h with ⟨oa, ob, r, hoa, -, -, rfl⟩ | ⟨oa, ob, r, ov, -, -, hw', -⟩ | ⟨holds, oa, ob, -, rfl⟩ |
    ⟨oa, -, rfl⟩ | ⟨ext, oa, -, rfl⟩
  · have hslot : (basicOperands oa ob s).slotA ≠ .ov := by
      simpa [basicOperands_slotA, resolve_slot_eq_ov, hoa] using hd
    rw [writeResult, writeSlot_o _ _ _ hslot, basicOperands_o]
  · simp [hw] at hw'
  · simp
  · simp [jsrResolveThenPush]
  · rfl

/-- R30, R180: an instruction sets `skip` exactly when it is an IF whose condition fails. -/
theorem exec_skip {i : Instr} {s t : State} (h : exec i s = .next t) :
    t.skip = true ↔ s.skip = true ∨ ∃ holds oa ob, condition i = some (holds, oa, ob) ∧
      holds (basicOperands oa ob s).a (basicOperands oa ob s).b = false := by
  rcases exec_cases h with ⟨oa, ob, r, hd, -, -, rfl⟩ | ⟨oa, ob, r, ov, hd, -, -, ht⟩ | ⟨holds, oa, ob, hc, rfl⟩ |
    ⟨oa, rfl, rfl⟩ | ⟨ext, oa, rfl, rfl⟩
  · simp [(kinds_of_destination hd).1]
  · rcases ht with rfl | rfl <;> simp [(kinds_of_destination hd).1]
  · rw [skipUnless_skip]
    cases hv : holds (basicOperands oa ob s).a (basicOperands oa ob s).b <;> simp [hc, hv]
  · simp [jsrResolveThenPush, condition]
  · simp [raiseHalt, condition]

/-- R31, R192: an instruction sets `halted` exactly when it is an undefined extended one. -/
theorem exec_halted {i : Instr} {s t : State} (h : exec i s = .next t) :
    t.halted = true ↔ s.halted = true ∨ ∃ ext oa, i = .undefExt ext oa := by
  rcases exec_frame h with ⟨oa, ob, hops, -, hf⟩ | ⟨oa, rfl, rfl⟩ | ⟨ext, oa, rfl, rfl⟩
  · have hne : ∀ ext d, i ≠ .undefExt ext d := by
      rintro ext d rfl
      cases hops
    simp [hf.halted, hne]
  · simp [jsrResolveThenPush]
  · simp [raiseHalt]

/-! ### The step -/

/-- R131: a step is enabled in every state that is not halted. -/
theorem step_total {s : State} (h : s.halted = false) : ∃ t, step s = .next t := by
  cases hs : s.skip
  · simpa [step, h, hs] using exec_total _ _
  · simp [step, h, hs]

/-! ### The memory port (R44, R60) -/

theorem replay_append (tr tr' : List Access) (m : Memory) : replay (tr ++ tr') m = replay tr' (replay tr m) := by
  induction tr generalizing m with
  | nil => rfl
  | cons x tr ih => cases x <;> exact ih _

@[simp] theorem replay_extraReads (o : Operand) (s : State) (m : Memory) : replay (extraReads o s) m = m := by
  unfold extraReads
  split <;> rfl

@[simp] theorem replay_slotReads (d : Slot) (s : State) (m : Memory) : replay (slotReads d s) m = m := by
  cases d <;> rfl

/-- R56, R60 (5): a slot's write does to memory what its transactions do. -/
theorem replay_slotWrites (d : Slot) (v : Word) (s : State) :
    replay (slotWrites d v) s.mem = (writeSlot d v s).mem := by
  cases d <;> rfl

@[simp] theorem replay_operandReads (oa ob : Operand) (s : State) (m : Memory) :
    replay (operandReads oa ob s) m = m := by
  simp [operandReads, replay_append]

/-- The transactions of an instruction that writes a result leave the memory that the write leaves. -/
theorem replay_writingAccesses (f : Word → Word → Word) (oa ob : Operand) (s : State) :
    replay (writingAccesses f oa ob s) s.mem
      = (writeResult (basicOperands oa ob s) (f (basicOperands oa ob s).a (basicOperands oa ob s).b)).mem := by
  simp only [writingAccesses, replay_append, replay_operandReads, writeResult]
  rw [← replay_slotWrites, basicOperands_mem]

/-- R191: JSR's one write is its push. -/
theorem replay_jsrAccesses (oa : Operand) (s : State) :
    replay (jsrAccesses .resolveThenPush oa s) s.mem = (jsrResolveThenPush oa s).mem := by
  simp [jsrAccesses, jsrResolveThenPush, replay_append, replay, push_mem]

/-- R44: the memory an instruction leaves is what its transactions leave. -/
theorem exec_mem {i : Instr} {s t : State} (h : exec i s = .next t) : t.mem = replay (instrAccesses i s) s.mem := by
  cases i with
  | set a b => cases h; exact (replay_writingAccesses (fun _ y => y) a b s).symm
  | mod a b | and a b | bor a b | xor a b => cases h; exact (replay_writingAccesses _ a b s).symm
  | add a b | sub a b | mul a b | shl a b | shr a b => cases h; exact (replay_writingAccesses _ a b s).symm
  | div a b =>
    cases h
    rw [instrAccesses, replay_writingAccesses, divResult]
    split <;> simp
  | ife a b | ifn a b | ifg a b | ifb a b =>
    cases h; rw [instrAccesses, replay_operandReads, skipUnless_mem]
  | jsr a => cases h; exact (replay_jsrAccesses a s).symm
  | undefExt ext a => cases h; rfl

/-- R52, R60 (1): a step that runs an instruction fetches it, and the rest of its trace is the instruction's. -/
theorem portTrace_of_not_skip {s : State} (hh : s.halted = false) (hs : s.skip = false) :
    portTrace s = fetchAccess s :: instrAccesses (decode (wordAtPc s)) (s.setPc (s.pc + 1)) := by
  simp only [portTrace, hh, hs, Bool.false_eq_true, if_false]
  rfl

/-- R132: a skip step reads the word it discards. -/
theorem portTrace_of_skip {s : State} (hh : s.halted = false) (hs : s.skip = true) :
    portTrace s = [fetchAccess s] := by
  simp [portTrace, hh, hs, params, skipAccesses]

/-! ### A memory in canonical form is determined by its reads -/

theorem Memory.wfFrom_cons {lo : Nat} {c : Nat × Word} {m : Memory} :
    Memory.wfFrom lo (c :: m) = true ↔
      lo ≤ c.1 ∧ c.1 < 65536 ∧ c.2 ≠ Memory.unlisted ∧ Memory.wfFrom (c.1 + 1) m = true := by
  simp [Memory.wfFrom, and_assoc]

theorem Memory.lookup_cons_self (c : Nat × Word) (m : Memory) : Memory.lookup (c :: m) c.1 = c.2 := by
  simp [Memory.lookup]

theorem Memory.lookup_cons_ne {c : Nat × Word} {a : Nat} (m : Memory) (h : c.1 ≠ a) :
    Memory.lookup (c :: m) a = Memory.lookup m a := by
  simp [Memory.lookup, h]

/-- Only addresses in the range of the canonical form are listed. -/
theorem Memory.range_of_lookup_ne {m : Memory} {lo a : Nat} (hm : Memory.wfFrom lo m = true)
    (h : Memory.lookup m a ≠ Memory.unlisted) : lo ≤ a ∧ a < 65536 := by
  induction m generalizing lo with
  | nil => exact absurd rfl h
  | cons c m ih =>
    obtain ⟨hlo, hlt, -, hm⟩ := Memory.wfFrom_cons.mp hm
    by_cases hc : c.1 = a
    · exact hc ▸ ⟨hlo, hlt⟩
    · obtain ⟨hlo', hlt'⟩ := ih hm (Memory.lookup_cons_ne m hc ▸ h)
      omega

theorem Memory.lookup_of_out_of_range {m : Memory} {lo a : Nat} (hm : Memory.wfFrom lo m = true)
    (h : a < lo ∨ 65536 ≤ a) : Memory.lookup m a = Memory.unlisted := by
  by_contra hne
  have := Memory.range_of_lookup_ne hm hne
  omega

/-- The first address listed is the least address that does not read as unlisted. -/
theorem Memory.head_le_of_lookup_eq {m m' : Memory} {c c' : Nat × Word} {lo lo' : Nat}
    (hm : Memory.wfFrom lo (c :: m) = true) (hm' : Memory.wfFrom lo' (c' :: m') = true)
    (h : ∀ a, Memory.lookup (c :: m) a = Memory.lookup (c' :: m') a) : c.1 ≤ c'.1 := by
  obtain ⟨-, hlt, hv, hw⟩ := Memory.wfFrom_cons.mp hm
  obtain ⟨-, -, hv', -⟩ := Memory.wfFrom_cons.mp hm'
  refine (Memory.range_of_lookup_ne (Memory.wfFrom_cons.mpr ⟨le_rfl, hlt, hv, hw⟩) ?_).1
  rwa [h, Memory.lookup_cons_self]

theorem Memory.eq_of_lookup_eq {m m' : Memory} {lo : Nat} (hm : Memory.wfFrom lo m = true)
    (hm' : Memory.wfFrom lo m' = true) (h : ∀ a, Memory.lookup m a = Memory.lookup m' a) : m = m' := by
  induction m generalizing lo m' with
  | nil =>
    cases m' with
    | nil => rfl
    | cons c' m' =>
      have hc' : Memory.unlisted = c'.2 := (h c'.1).trans (Memory.lookup_cons_self c' m')
      exact absurd hc'.symm (Memory.wfFrom_cons.mp hm').2.2.1
  | cons c m ih =>
    cases m' with
    | nil =>
      have hc : c.2 = Memory.unlisted := (Memory.lookup_cons_self c m).symm.trans (h c.1)
      exact absurd hc (Memory.wfFrom_cons.mp hm).2.2.1
    | cons c' m' =>
      have haddr : c.1 = c'.1 :=
        le_antisymm (Memory.head_le_of_lookup_eq hm hm' h) (Memory.head_le_of_lookup_eq hm' hm fun a => (h a).symm)
      have hword : c.2 = c'.2 := by
        rw [← Memory.lookup_cons_self c m, h, haddr, Memory.lookup_cons_self]
      obtain rfl : c = c' := Prod.ext haddr hword
      obtain ⟨-, -, -, htail⟩ := Memory.wfFrom_cons.mp hm
      obtain ⟨-, -, -, htail'⟩ := Memory.wfFrom_cons.mp hm'
      refine congrArg (c :: ·) (ih htail htail' fun a => ?_)
      by_cases ha : c.1 = a
      · have hlt : a < c.1 + 1 := by omega
        rw [Memory.lookup_of_out_of_range htail (.inl hlt), Memory.lookup_of_out_of_range htail' (.inl hlt)]
      · rw [← Memory.lookup_cons_ne m ha, h, Memory.lookup_cons_ne m' ha]

/-- R50: 65536 reads determine the canonical form. -/
theorem Memory.eq_of_read_eq {m m' : Memory} (hm : Memory.wf m = true) (hm' : Memory.wf m' = true)
    (h : ∀ a, Memory.read m a = Memory.read m' a) : m = m' := by
  refine Memory.eq_of_lookup_eq hm hm' fun a => ?_
  by_cases ha : a < 65536
  · have hread := h (BitVec.ofNat 16 a)
    rwa [Memory.read, Memory.read, BitVec.toNat_ofNat, Nat.mod_eq_of_lt ha] at hread
  · have hge : 65536 ≤ a := Nat.not_lt.mp ha
    rw [Memory.lookup_of_out_of_range hm (.inr hge), Memory.lookup_of_out_of_range hm' (.inr hge)]

/-! ### The driving loop (R41, R141) -/

theorem drive_of_halted {s : State} (h : s.halted = true) (n : Nat) : drive n s = s := by
  cases n <;> simp [drive, h]

theorem drive_succ_of_step {s t : State} (h : step s = .next t) (n : Nat) : drive (n + 1) s = drive n t := by
  simp [drive, (step_cases h).1, h]

theorem reaches_of_step_reaches {s t u : State} (hstep : step s = .next t) (h : Reaches t u) : Reaches s u := by
  induction h with
  | refl => exact .tail .refl hstep
  | tail _ hlast ih => exact .tail ih hlast

theorem reaches_drive (n : Nat) (s : State) : Reaches s (drive n s) := by
  induction n generalizing s with
  | zero => exact .refl
  | succ n ih =>
    cases hh : s.halted
    · obtain ⟨t, ht⟩ := step_total hh
      rw [drive_succ_of_step ht]
      exact reaches_of_step_reaches ht (ih t)
    · rw [drive_of_halted hh]
      exact .refl

/-- Once the loop has ended at `halted`, more fuel changes nothing. -/
theorem drive_stable {n m : Nat} {s : State} (h : (drive n s).halted = true) (hnm : n ≤ m) :
    drive m s = drive n s := by
  induction n generalizing m s with
  | zero => exact drive_of_halted h m
  | succ n ih =>
    cases hh : s.halted
    · obtain ⟨t, ht⟩ := step_total hh
      obtain ⟨k, rfl⟩ := Nat.exists_eq_add_of_le' hnm
      rw [drive_succ_of_step ht] at h ⊢
      rw [← Nat.add_assoc, drive_succ_of_step ht]
      exact ih h (Nat.le_add_left n k)
    · rw [drive_of_halted hh, drive_of_halted hh]

end Sys2Proof.Machine

/-! ### The obligations -/

namespace Sys2Proof.Proofs

open Sys2Proof.Machine Sys2Proof.Safety

/-- Settles O44: a skip step changes no register, and an instruction only its destination (`exec_reg`). -/
theorem registersChangeOnlyAsDestinations : Obligations.RegistersChangeOnlyAsDestinations := by
  intro s t r h hne
  obtain ⟨-, ⟨-, rfl⟩ | ⟨hs, hexec⟩⟩ := step_cases h
  · exact absurd (skipStep_reg s r) hne
  · refine ⟨hs, ?_⟩
    by_contra hd
    exact hne (exec_reg hexec hd :)

/-- Settles O45: a skip step leaves `SP`, and `exec_sp` accounts for every instruction. -/
theorem stackPointerMovesOnlyByStackOperands : Obligations.StackPointerMovesOnlyByStackOperands := by
  intro s t h
  obtain ⟨-, ⟨hs, rfl⟩ | ⟨hs, hexec⟩⟩ := step_cases h
  · exact ⟨fun _ => skipStep_sp s, fun hs' => by simp [hs] at hs'⟩
  · exact ⟨fun hs' => by simp [hs] at hs', fun _ hd => (exec_sp hexec hd :)⟩

/-- Settles O46: a skip step leaves `O`, and so does an instruction that is none of its writers (`exec_o`). -/
theorem overflowRegisterChangesOnlyByItsWriters : Obligations.OverflowRegisterChangesOnlyByItsWriters := by
  intro s t h hne
  obtain ⟨-, ⟨-, rfl⟩ | ⟨hs, hexec⟩⟩ := step_cases h
  · exact absurd (skipStep_o s) hne
  · refine ⟨hs, ?_⟩
    by_contra hcon
    obtain ⟨hw, hd⟩ := not_or.mp hcon
    exact hne (exec_o hexec (Bool.eq_false_of_not_eq_true hw) hd :)

/-- Settles O47: a skip step clears `skip`, and `exec_skip` says which instructions set it. -/
theorem skipIsSetOnlyByFailedIfs : Obligations.SkipIsSetOnlyByFailedIfs := by
  intro s t h
  obtain ⟨-, ⟨hs, rfl⟩ | ⟨hs, hexec⟩⟩ := step_cases h
  · simp [hs]
  · have hset := exec_skip hexec
    simp only [State.setPc_skip, hs, Bool.false_eq_true, false_or] at hset
    exact hset.trans (and_iff_right hs).symm

/-- Settles O48: `halted` is clear before any step; a skip step leaves it, and `exec_halted` says which words set it. -/
theorem haltedIsSetOnlyByUndefinedExtendedWords : Obligations.HaltedIsSetOnlyByUndefinedExtendedWords := by
  intro s t h
  obtain ⟨hrun, ⟨hs, rfl⟩ | ⟨hs, hexec⟩⟩ := step_cases h
  · simp [hs, hrun]
  · simp [exec_halted hexec, hs, hrun, haltingWord_iff, wordAtPc]

/-- Settles O49: a skip step's trace and the fetch only read; `exec_mem` is the rest. -/
theorem portWritesAccountForMemory : Obligations.PortWritesAccountForMemory := by
  intro s t h
  obtain ⟨hrun, ⟨hs, rfl⟩ | ⟨hs, hexec⟩⟩ := step_cases h
  · rw [portTrace_of_skip hrun hs]
    rfl
  · rw [portTrace_of_not_skip hrun hs]
    exact exec_mem hexec

/-- Settles O56: the registers are equal by `GRegs.ext_get`, the memories by `Memory.eq_of_read_eq`. -/
theorem inspectionShowsTheWholeState : Obligations.InspectionShowsTheWholeState := by
  intro s t hs ht h
  have hregs : s.regs = t.regs := GRegs.ext_get _ _ fun r => FieldValue.word.inj (h (.reg r))
  have hsp : s.sp = t.sp := FieldValue.word.inj (h .sp)
  have hpc : s.pc = t.pc := FieldValue.word.inj (h .pc)
  have ho : s.o = t.o := FieldValue.word.inj (h .o)
  have hskip : s.skip = t.skip := FieldValue.flag.inj (h .skip)
  have hhalted : s.halted = t.halted := FieldValue.flag.inj (h .halted)
  have hmem : s.mem = t.mem := Memory.eq_of_read_eq hs ht fun a => FieldValue.word.inj (h (.mem a))
  cases s
  cases t
  congr

/-- Settles O57: the loop's equations, and two inductions over its fuel (`reaches_drive`, `drive_stable`). -/
theorem drivingLoopEndsAtHalted : Obligations.DrivingLoopEndsAtHalted := fun n s =>
  ⟨rfl, fun _ _ hstep => drive_succ_of_step hstep n, fun hh => drive_of_halted hh n, reaches_drive n s,
    fun hh _ hnm => drive_stable hh hnm⟩

/-- Settles O7: the 32 codes below the literals one by one, and `decodeOperand_lit`. -/
theorem operandCodesMeanTheirOperands : Obligations.OperandCodesMeanTheirOperands :=
  ⟨by decide, rfl, rfl, rfl, rfl, rfl, rfl, rfl, rfl, decodeOperand_lit⟩

/-- Settles O52: the reset memory is in canonical form (`State.reset_wf`), and the reset machine is not halted. -/
theorem resetMeetsTheMachineInvariant : Obligations.ResetMeetsTheMachineInvariant := by
  have hrun : State.reset.halted ≠ true := Bool.false_ne_true
  exact ⟨State.reset_wf, fun h => absurd h hrun, fun h => absurd h hrun⟩

/-- Settles O53: memory lists nothing, so every word reads as the unlisted one; the registers one by one. -/
theorem resetValues : Obligations.ResetValues := by
  refine ⟨fun a => rfl, fun r => ?_, rfl, rfl, rfl, rfl, rfl⟩
  cases r <;> rfl

end Sys2Proof.Proofs
end

section
/-! PROOFS of the family "memory" (20_memory.md): the canonical form and the invariant that every step keeps, progress,
and the order of a step's port transactions. First the facts about the model that they share, then the obligations. -/

namespace Sys2Proof.Machine

open Sys2Proof.Safety

/-! ### The canonical form along a port trace (R50, R56) -/

/-- Port transactions keep the canonical form: a read changes nothing, and `Memory.write_wf` is the write. -/
theorem replay_wf (tr : List Access) {m : Memory} (hm : Memory.wf m = true) : Memory.wf (replay tr m) = true := by
  induction tr generalizing m with
  | nil => exact hm
  | cons x tr ih =>
    cases x with
    | read a v => exact ih hm
    | write a v => exact ih (Memory.write_wf m a v hm)

/-! ### The step that halts (R192, R200) -/

/-- A step that ends halted ran a halting word, and the Halt event is all it did after the fetch. -/
theorem step_to_halted {s t : State} (h : step s = .next t) (ht : t.halted = true) :
    s.skip = false ∧ haltingWord (wordAtPc s) = true ∧ t = raiseHalt (s.setPc (s.pc + 1)) := by
  obtain ⟨hrun, ⟨-, rfl⟩ | ⟨hs, hexec⟩⟩ := step_cases h
  · simp [hrun] at ht
  · rcases (exec_halted hexec).mp ht with hh | ⟨ext, oa, hi⟩
    · simp [hrun] at hh
    · rw [hi] at hexec
      cases hexec
      exact ⟨hs, (haltingWord_iff _).mpr ⟨ext, oa, hi⟩, rfl⟩

/-! ### The order of a step's port transactions (R60) -/

/-- The transactions are reads alone, each carrying the word that the memory `m` holds. -/
def ReadsOf (m : Memory) (tr : List Access) : Prop :=
  ∃ reads : List Word, tr = reads.map fun a => Access.read a (Memory.read m a)

/-- The transactions are one write, or none. -/
def AtMostOneWrite (tr : List Access) : Prop :=
  ∃ writes : List (Word × Word), tr = writes.map (fun c => Access.write c.1 c.2) ∧ writes.length ≤ 1

theorem readsOf_nil (m : Memory) : ReadsOf m [] := ⟨[], rfl⟩

theorem readsOf_read (m : Memory) (a : Word) : ReadsOf m [.read a (Memory.read m a)] := ⟨[a], rfl⟩

theorem readsOf_append {m : Memory} {tr tr' : List Access} (h : ReadsOf m tr) (h' : ReadsOf m tr') :
    ReadsOf m (tr ++ tr') := by
  obtain ⟨reads, rfl⟩ := h
  obtain ⟨reads', rfl⟩ := h'
  exact ⟨reads ++ reads', List.map_append.symm⟩

theorem atMostOneWrite_nil : AtMostOneWrite [] := ⟨[], rfl, Nat.zero_le 1⟩

theorem atMostOneWrite_write (a v : Word) : AtMostOneWrite [.write a v] := ⟨[(a, v)], rfl, le_rfl⟩

/-- R60 (2). -/
theorem readsOf_extraReads (o : Operand) (s : State) : ReadsOf s.mem (extraReads o s) := by
  unfold extraReads
  split
  · exact readsOf_nil _
  · exact readsOf_read _ _

/-- R60 (4). -/
theorem readsOf_slotReads (d : Slot) (s : State) : ReadsOf s.mem (slotReads d s) := by
  cases d with
  | mem a => exact readsOf_read _ _
  | reg _ | sp | pc | ov | lit _ => exact readsOf_nil _

/-- R60 (5). -/
theorem atMostOneWrite_slotWrites (d : Slot) (v : Word) : AtMostOneWrite (slotWrites d v) := by
  cases d with
  | mem a => exact atMostOneWrite_write a v
  | reg _ | sp | pc | ov | lit _ => exact atMostOneWrite_nil

/-- R60 (2) to (4): resolving an operand leaves memory, so every read sees it as it was. -/
theorem readsOf_operandReads (oa ob : Operand) (s : State) : ReadsOf s.mem (operandReads oa ob s) := by
  have hextraB := readsOf_extraReads ob (resolve oa s).2
  have hslotA := readsOf_slotReads (basicOperands oa ob s).slotA (basicOperands oa ob s).state
  have hslotB := readsOf_slotReads (basicOperands oa ob s).slotB (basicOperands oa ob s).state
  rw [resolve_mem] at hextraB
  rw [basicOperands_mem] at hslotA hslotB
  exact readsOf_append (readsOf_append (readsOf_append (readsOf_extraReads oa s) hextraB) hslotA) hslotB

/-- The transactions are reads of the memory `m`, followed by at most one write. -/
def ReadsThenAtMostOneWrite (m : Memory) (tr : List Access) : Prop :=
  ∃ rs ws, tr = rs ++ ws ∧ ReadsOf m rs ∧ AtMostOneWrite ws

theorem readsThenAtMostOneWrite_of_readsOf {m : Memory} {tr : List Access} (h : ReadsOf m tr) :
    ReadsThenAtMostOneWrite m tr :=
  ⟨tr, [], (List.append_nil tr).symm, h, atMostOneWrite_nil⟩

theorem readsThenAtMostOneWrite_writingAccesses (f : Word → Word → Word) (oa ob : Operand) (s : State) :
    ReadsThenAtMostOneWrite s.mem (writingAccesses f oa ob s) :=
  ⟨_, _, rfl, readsOf_operandReads oa ob s, atMostOneWrite_slotWrites _ _⟩

/-- R191: JSR's push comes after its operand's reads. -/
theorem readsThenAtMostOneWrite_jsrAccesses (oa : Operand) (s : State) :
    ReadsThenAtMostOneWrite s.mem (jsrAccesses .resolveThenPush oa s) := by
  have hslot := readsOf_slotReads (resolve oa s).1 (resolve oa s).2
  rw [resolve_mem] at hslot
  exact ⟨_, _, rfl, readsOf_append (readsOf_extraReads oa s) hslot, atMostOneWrite_write _ _⟩

/-- R60 (2) to (5), for every instruction. -/
theorem readsThenAtMostOneWrite_instrAccesses (i : Instr) (s : State) :
    ReadsThenAtMostOneWrite s.mem (instrAccesses i s) := by
  cases i with
  | set a b => exact readsThenAtMostOneWrite_writingAccesses (fun _ y => y) a b s
  | add a b | sub a b | mul a b | div a b | mod a b | shl a b | shr a b | and a b | bor a b | xor a b =>
    exact readsThenAtMostOneWrite_writingAccesses _ a b s
  | ife a b | ifn a b | ifg a b | ifb a b => exact readsThenAtMostOneWrite_of_readsOf (readsOf_operandReads a b s)
  | jsr a => exact readsThenAtMostOneWrite_jsrAccesses a s
  | undefExt ext a => exact readsThenAtMostOneWrite_of_readsOf (readsOf_nil _)

/-- A step's trace begins with the fetch (R60 (1), R132), and what follows are reads and then at most one write. -/
theorem portTrace_eq_fetch_cons {s : State} (h : s.halted = false) :
    ∃ tr, portTrace s = fetchAccess s :: tr ∧ ReadsThenAtMostOneWrite s.mem tr := by
  cases hs : s.skip
  · exact ⟨_, portTrace_of_not_skip h hs, readsThenAtMostOneWrite_instrAccesses _ (s.setPc (s.pc + 1))⟩
  · exact ⟨_, portTrace_of_skip h hs, readsThenAtMostOneWrite_of_readsOf (readsOf_nil _)⟩

/-! ### The next word as destination (R111) -/

/-- ADD's result is the 16-bit sum. -/
theorem addResult_eq_add (a b : Word) : addResult a b = a + b := by
  simp [addResult, trunc16, BitVec.ofNat_add]

/-- Operand A's value is the extra word as memory held it. -/
theorem basicOperands_next_a (ob : Operand) (s : State) : (basicOperands .next ob s).a = s.memRead s.pc :=
  basicOperands_memRead .next ob s s.pc

/-- The result goes to the extra word's own place. -/
theorem writeResult_next_memRead (ob : Operand) (s : State) (r : Word) :
    (writeResult (basicOperands .next ob s) r).memRead s.pc = r :=
  State.memWrite_memRead_same _ _ _

end Sys2Proof.Machine

/-! ### The obligations -/

namespace Sys2Proof.Proofs

open Sys2Proof.Machine Sys2Proof.Safety

/-- Settles O51: memory is what the step's port transactions leave of it (`portWritesAccountForMemory`, `replay_wf`); a
step that ends halted is the Halt event at a halting word (`step_to_halted`). -/
theorem stepKeepsTheMachineInvariant : Obligations.StepKeepsTheMachineInvariant := by
  intro s t hinv hstep
  refine ⟨?_, fun ht => ?_, fun ht => ?_⟩
  · rw [portWritesAccountForMemory s t hstep]
    exact replay_wf _ hinv.memory
  · obtain ⟨hs, -, rfl⟩ := step_to_halted hstep ht
    exact hs
  · obtain ⟨-, hword, rfl⟩ := step_to_halted hstep ht
    simpa [raiseHalt, wordAtPc] using hword

/-- Settles O13: the reads determine the canonical form (`Memory.eq_of_read_eq`, an induction over both lists). -/
theorem canonicalMemoriesThatReadAlikeAreEqual : Obligations.CanonicalMemoriesThatReadAlikeAreEqual :=
  fun _ _ hm hm' h => Memory.eq_of_read_eq hm hm' h

/-- Settles O40: a halted machine's step is the fault by definition; any other step goes on (`step_total`). -/
theorem stepGoesOnExactlyWhenNotHalted : Obligations.StepGoesOnExactlyWhenNotHalted :=
  fun _ => ⟨fun h => if_pos h, step_total⟩

/-- Settles O50: the fetch is the first read, and `portTrace_eq_fetch_cons` gives the order of the rest. -/
theorem portReadsComeBeforeTheOneWrite : Obligations.PortReadsComeBeforeTheOneWrite := by
  intro s h
  obtain ⟨_, htrace, _, _, rfl, ⟨reads, rfl⟩, ⟨writes, rfl, hlen⟩⟩ := portTrace_eq_fetch_cons h
  exact ⟨s.pc :: reads, writes, htrace, rfl, hlen⟩

/-- Settles O30: operand A is read before the write (`basicOperands_next_a`), and the write is to the extra word
(`writeResult_next_memRead`); ADD's `O` is no word of memory. -/
theorem nextWordDestinationRewritesTheExtraWord : Obligations.NextWordDestinationRewritesTheExtraWord := by
  intro ob s x
  have ha : x.a = s.memRead s.pc := basicOperands_next_a ob s
  refine ⟨ha, ⟨writeResult x x.b, rfl, writeResult_next_memRead ob s x.b⟩,
    ⟨writeResultThenO x (addResult x.a x.b) (addOverflow x.a x.b), rfl, ?_⟩⟩
  calc (writeResultThenO x (addResult x.a x.b) (addOverflow x.a x.b)).memRead s.pc
      = addResult x.a x.b := writeResult_next_memRead ob s _
    _ = s.memRead s.pc + x.b := by rw [addResult_eq_add, ha]

end Sys2Proof.Proofs
end

section
/-! PROOFS of the family "encoding" (30_encoding.md): decoder and encoder are inverse to each other, the first word decides
the length, and which runs of words are refused. First the facts about the model that they share, then the obligations. -/

namespace Sys2Proof

/-! ### The encoder, then the decoder -/

/-- R81, R82: encoding a well-formed instruction and decoding the first word gives the instruction. -/
theorem decode_encodeFirst {i : Instr} (h : i.wellFormed = true) : decode (encodeFirst i) = i := by
  cases i with
  | set a b | add a b | sub a b | mul a b | div a b | mod a b | shl a b | shr a b | and a b | bor a b | xor a b
  | ife a b | ifn a b | ifg a b | ifb a b => simp [decode, encodeFirst, encodeBasic]
  | jsr a => simp [decode, encodeFirst, encodeExtended, decodeExtended]
  | undefExt ext a =>
    have hext : ext ≠ 0x01#6 := by simpa [Instr.wellFormed, undefinedExt] using h
    simp [decode, encodeFirst, encodeExtended, decodeExtended, hext]

/-- The word that encodes a well-formed instruction decodes to it. -/
theorem decode_eq_of_encodeFirst_eq {i : Instr} {w : Word} (hi : i.wellFormed = true) (h : encodeFirst i = w) :
    decode w = i := h ▸ decode_encodeFirst hi

/-- R70: three fields side by side are the word packed from them. -/
theorem append_eq_packWord (high mid : BitVec 6) (op : BitVec 4) : high ++ mid ++ op = packWord high mid op := by
  apply BitVec.eq_of_toNat_eq
  rw [packWord_toNat, BitVec.toNat_append, BitVec.toNat_append, ← Nat.shiftLeft_add_eq_or_of_lt mid.isLt,
    ← Nat.shiftLeft_add_eq_or_of_lt op.isLt, Nat.shiftLeft_eq, Nat.shiftLeft_eq]
  omega

/-- R70, R73: the basic format, by operand codes. -/
theorem encodeBasic_decodeOperand (op : BitVec 4) (ca cb : BitVec 6) :
    encodeBasic op (decodeOperand ca) (decodeOperand cb) = cb ++ ca ++ op := by
  simp [encodeBasic, append_eq_packWord]

/-- R71, R73: the extended format, by its operand's code. -/
theorem encodeExtended_decodeOperand (ext ca : BitVec 6) :
    encodeExtended ext (decodeOperand ca) = ca ++ ext ++ 0b0000#4 := by
  simp [encodeExtended, append_eq_packWord]

/-! ### The decoder, then the encoder -/

/-- R71, R82: an extended word's instruction is well formed, and its encoding keeps the extended opcode and the operand. -/
theorem encodeFirst_decodeExtended (ext : BitVec 6) (a : Operand) :
    (decodeExtended ext a).wellFormed = true ∧ encodeFirst (decodeExtended ext a) = encodeExtended ext a := by
  unfold decodeExtended
  split
  · next h => exact ⟨rfl, h ▸ rfl⟩
  · next h => exact ⟨bne_iff_ne.mpr h, rfl⟩

/-- R71: opcode field zero marks the extended format. -/
theorem decode_of_opField_eq_zero {w : Word} (h : opField w = 0#4) :
    decode w = decodeExtended (midField w) (decodeOperand (highField w)) := by
  simp [decode, h]

/-- R70, R81: a nonzero opcode field is a basic opcode, and the instruction's encoding keeps it and the two operands. -/
theorem encodeFirst_decode_of_opField_ne_zero {w : Word} (h : opField w ≠ 0#4) :
    (decode w).wellFormed = true ∧
      encodeFirst (decode w) = encodeBasic (opField w) (decodeOperand (midField w)) (decodeOperand (highField w)) := by
  unfold decode
  generalize opField w = op at h ⊢
  obtain ⟨⟨n, hn⟩⟩ := op
  interval_cases n
  · exact absurd rfl h
  all_goals exact ⟨rfl, rfl⟩

/-- R72, R85. -/
theorem encodeFirst_decode (w : Word) : (decode w).wellFormed = true ∧ encodeFirst (decode w) = w := by
  by_cases h : opField w = 0#4
  · obtain ⟨hwf, henc⟩ := encodeFirst_decodeExtended (midField w) (decodeOperand (highField w))
    rw [decode_of_opField_eq_zero h]
    refine ⟨hwf, henc.trans ?_⟩
    rw [encodeExtended, encodeOperand_decodeOperand, ← h, packWord_fields]
  · obtain ⟨hwf, henc⟩ := encodeFirst_decode_of_opField_ne_zero h
    refine ⟨hwf, henc.trans ?_⟩
    rw [encodeBasic, encodeOperand_decodeOperand, encodeOperand_decodeOperand, packWord_fields]

/-! ### The length (R74, R76) -/

/-- R76: `Laws.Length`, over all constructors. -/
theorem lengthOfWord_encodeFirst {i : Instr} (h : i.wellFormed = true) : lengthOfWord (encodeFirst i) = i.length := by
  cases i with
  | set a b | add a b | sub a b | mul a b | div a b | mod a b | shl a b | shr a b | and a b | bor a b | xor a b
  | ife a b | ifn a b | ifg a b | ifb a b => exact Laws.Length.basic _ (by decide) a b
  | jsr a => exact Laws.Length.jsr a h
  | undefExt ext a => exact Laws.Length.undefExt ext a h

/-- R76: the length read off a word is the decoded instruction's. -/
theorem lengthOfWord_eq (w : Word) : lengthOfWord w = (decode w).length := by
  obtain ⟨hwf, henc⟩ := encodeFirst_decode w
  rw [← lengthOfWord_encodeFirst hwf, henc]

/-- R76: at most one extra word for each of at most two operands. -/
theorem length_le_maxLength (i : Instr) : i.length ≤ maxLength := by
  cases i with
  | set a b | add a b | sub a b | mul a b | div a b | mod a b | shl a b | shr a b | and a b | bor a b | xor a b
  | ife a b | ifn a b | ifg a b | ifb a b =>
    exact Nat.add_le_add_left (Nat.add_le_add (extra_le_one a) (extra_le_one b)) 1
  | jsr a => exact Nat.add_le_add_left ((extra_le_one a).trans one_le_two) 1
  | undefExt ext a => exact Nat.le_add_right 1 2

/-- R74, with the operand code taken as a number. -/
theorem extraOfCode_eq_toNat (c : BitVec 6) :
    extraOfCode c =
      if (0x10 ≤ c.toNat ∧ c.toNat ≤ 0x17) ∨ c.toNat = 0x1E ∨ c.toNat = 0x1F then 1 else 0 := by
  simp [extraOfCode, BitVec.le_def, ← BitVec.toNat_inj]

/-! ### Runs of words (R75, R76) -/

/-- The instruction takes as many words after its first as it has extra words, and leaves the others. -/
theorem decodeWords_cons_append {w : Word} {extras : List Word} (rest : List Word)
    (h : extras.length = (decode w).extraWords) :
    decodeWords (w :: (extras ++ rest)) = .ok (decode w, extras, rest) := by
  simp [decodeWords, ← h]

/-- A run with a first word is refused for want of extra words. -/
theorem decodeWords_cons_eq_truncated_iff (w : Word) (rest : List Word) :
    decodeWords (w :: rest) = .error .truncated ↔ rest.length < (decode w).extraWords := by
  simp [decodeWords]

end Sys2Proof

/-! ### The obligations -/

namespace Sys2Proof.Proofs

/-- Settles O1: the first word decodes to the instruction (`decode_encodeFirst`), which then takes its own extra words. -/
theorem decodeAfterEncodeGivesTheInstruction : Obligations.DecodeAfterEncodeGivesTheInstruction := by
  intro i extras rest hwf hlen
  have hdec : decode (encodeFirst i) = i := decode_encodeFirst hwf
  have hrun := decodeWords_cons_append (w := encodeFirst i) rest (hlen.trans (congrArg Instr.extraWords hdec).symm)
  rwa [hdec] at hrun

/-- Settles O2: both formats keep every field of the word (`encodeFirst_decode`). -/
theorem encodeAfterDecodeGivesTheWord : Obligations.EncodeAfterDecodeGivesTheWord := encodeFirst_decode

/-- Settles O3: each pattern is the encoding of the instruction it should decode to, and `decode_encodeFirst` is the
rest. -/
theorem opcodeMapDecodesEveryPattern : Obligations.OpcodeMapDecodesEveryPattern := by
  intro cb ca a b
  have basic {op : BitVec 4} {i : Instr} (hi : i.wellFormed = true) (h : encodeFirst i = encodeBasic op a b) :
      decode (cb ++ ca ++ op) = i :=
    decode_eq_of_encodeFirst_eq hi (h.trans (encodeBasic_decodeOperand op ca cb))
  refine ⟨basic rfl rfl, basic rfl rfl, basic rfl rfl, basic rfl rfl, basic rfl rfl, basic rfl rfl, basic rfl rfl,
    basic rfl rfl, basic rfl rfl, basic rfl rfl, basic rfl rfl, basic rfl rfl, basic rfl rfl, basic rfl rfl,
    basic rfl rfl, ?jsr, fun ext hext => ?undefExt⟩
  case jsr => exact decode_eq_of_encodeFirst_eq rfl (encodeExtended_decodeOperand 0b000001#6 ca)
  case undefExt => exact decode_eq_of_encodeFirst_eq (bne_iff_ne.mpr hext) (encodeExtended_decodeOperand ext ca)

/-- Settles O5: R76's formula is `lengthOfWord` with its fields and codes as numbers; the length is the decoded
instruction's because the word is its encoding (`lengthOfWord_eq`). -/
theorem lengthComesFromTheFirstWord : Obligations.LengthComesFromTheFirstWord := by
  intro w extra
  have hmid : extraOfCode (midField w) = extra (w.toNat / 16 % 64) :=
    (extraOfCode_eq_toNat _).trans (congrArg extra (midField_toNat w))
  have hhigh : extraOfCode (highField w) = extra (w.toNat / 1024) :=
    (extraOfCode_eq_toNat _).trans (congrArg extra (highField_toNat w))
  have hbasic : opField w ≠ 0#4 ↔ w.toNat % 16 ≠ 0 := by
    rw [ne_eq, ← BitVec.toNat_inj, opField_toNat]
    rfl
  have hjsr : midField w = 0x01#6 ↔ w.toNat / 16 % 64 = 0x01 := by
    rw [← BitVec.toNat_inj, midField_toNat]
    rfl
  refine ⟨?_, lengthOfWord_eq w, length_le_maxLength (decode w)⟩
  simp only [lengthOfWord, hbasic, hjsr, hmid, hhigh]

/-- Settles O6: the empty run is refused, and any other for want of extra words, which with the first word are the length
it gives (`lengthOfWord_eq`). -/
theorem decodeRefusesOnlyTruncatedRuns : Obligations.DecodeRefusesOnlyTruncatedRuns := by
  intro ws
  cases ws with
  | nil => simp [decodeWords]
  | cons w rest =>
    rw [decodeWords_cons_eq_truncated_iff]
    simp only [List.head?_cons, Option.mem_some_iff, forall_eq', List.length_cons, lengthOfWord_eq, Instr.length]
    omega

end Sys2Proof.Proofs
end

section
/-! PROOFS of the family "operand resolver" (40_operand_resolver.md): what each operand code resolves to, what each slot
reads and takes, and the order in which a basic instruction's two operands are resolved and read. First the facts about the
model that they share, then the obligations. -/

namespace Sys2Proof.Machine

open Sys2Proof.Safety

/-! ### An operand's code, and sums and literals as words (R51, R73, R112, R118) -/

/-- R73, R100: resolving the operand that a code means. -/
theorem resolve_code (d : Operand) (s : State) : resolve (decodeOperand (encodeOperand d)) s = resolve d s := by
  rw [decodeOperand_encodeOperand]

/-- R118: a literal reads as its five bits, zero-extended. -/
theorem readSlot_lit (v : BitVec 5) (s : State) : readSlot (.lit v) s = v.zeroExtend 16 := by
  simp [readSlot, trunc16]

/-- R117, with `PC + 1` reduced to 16 bits. -/
theorem nextWord_eq (s : State) :
    nextWord s = (s.memRead s.pc, { s with pc := BitVec.ofNat 16 (s.pc.toNat + 1) }) := by
  have hpc : s.pc + 1 = BitVec.ofNat 16 (s.pc.toNat + 1) := (addResult_eq_add s.pc 1).symm
  rw [← hpc]
  rfl

/-- R103: the indexed operand's address, as a sum reduced to 16 bits. -/
theorem resolve_idx (r : GReg) (s : State) :
    resolve (.idx r) s
      = (.mem (BitVec.ofNat 16 ((s.reg r).toNat + (s.memRead s.pc).toNat)), { s with pc := s.pc + 1 }) := by
  have hsum : s.reg r + s.memRead s.pc = BitVec.ofNat 16 ((s.reg r).toNat + (s.memRead s.pc).toNat) :=
    (addResult_eq_add _ _).symm
  rw [← hsum]
  rfl

/-! ### The state that both resolutions leave (R113, R120) -/

/-- R100: resolving an operand changes `PC` and `SP` by the operand's moves and nothing else. -/
theorem resolve_state (d : Operand) (s : State) :
    (resolve d s).2 = { s with pc := s.pc + pcMove d, sp := s.sp + spMove d } := by
  rw [← resolve_pc, ← resolve_sp]
  cases d <;> rfl

theorem basicOperands_state (oa ob : Operand) (s : State) :
    (basicOperands oa ob s).state
      = { s with pc := s.pc + pcMove oa + pcMove ob, sp := s.sp + spMove oa + spMove ob } := by
  rw [basicOperands, resolve_state ob, resolve_state oa]

/-- The resolutions move `PC` and `SP`; any other slot reads as it did before them. -/
theorem readSlot_basicOperands {d : Slot} (hpc : d ≠ .pc) (hsp : d ≠ .sp) (oa ob : Operand) (s : State) :
    readSlot d (basicOperands oa ob s).state = readSlot d s := by
  rw [basicOperands_state]
  cases d with
  | reg r | mem a | ov | lit v => rfl
  | pc => exact absurd rfl hpc
  | sp => exact absurd rfl hsp

theorem basicOperands_a (oa ob : Operand) (s : State) :
    (basicOperands oa ob s).a = readSlot (basicOperands oa ob s).slotA (basicOperands oa ob s).state := rfl

theorem basicOperands_b (oa ob : Operand) (s : State) :
    (basicOperands oa ob s).b = readSlot (basicOperands oa ob s).slotB (basicOperands oa ob s).state := rfl

/-- Operand A's value is what its slot held before the resolutions, unless that slot is `PC` or `SP`. -/
theorem basicOperands_a_of_slotA {d : Slot} {oa ob : Operand} {s : State} (h : (basicOperands oa ob s).slotA = d)
    (hpc : d ≠ .pc) (hsp : d ≠ .sp) : (basicOperands oa ob s).a = readSlot d s := by
  rw [basicOperands_a, h, readSlot_basicOperands hpc hsp]

theorem basicOperands_b_of_slotB {d : Slot} {oa ob : Operand} {s : State} (h : (basicOperands oa ob s).slotB = d)
    (hpc : d ≠ .pc) (hsp : d ≠ .sp) : (basicOperands oa ob s).b = readSlot d s := by
  rw [basicOperands_b, h, readSlot_basicOperands hpc hsp]

/-- R110, R113: `[next word]` as operand B takes the word after operand A's extra word. -/
theorem basicOperands_slotB_memNext {oa : Operand} (h : oa.extra = 1) (s : State) :
    (basicOperands oa .memNext s).slotB = .mem (s.memRead (s.pc + 1)) := by
  have hmove : pcMove oa = 1 := congrArg (BitVec.ofNat 16) h
  calc (basicOperands oa .memNext s).slotB
      = .mem ((resolve oa s).2.memRead (resolve oa s).2.pc) := rfl
    _ = .mem (s.memRead (s.pc + 1)) := by rw [resolve_memRead, resolve_pc, hmove]

end Sys2Proof.Machine

/-! ### The obligations -/

namespace Sys2Proof.Proofs

open Sys2Proof.Machine Sys2Proof.Safety

/-- Settles O12: the order is `basicOperands`' own; the state it leaves is `basicOperands_state`, in which `PC` and `SP` read
as moved (`basicOperands_pc`, `basicOperands_sp`) and every other slot as before (`readSlot_basicOperands`). -/
theorem operandAResolvesBeforeOperandB : Obligations.OperandAResolvesBeforeOperandB := by
  intro oa ob s x
  refine ⟨rfl, rfl, rfl, rfl, rfl, basicOperands_state oa ob s, ?popPeek, ?pushPop, ?memNext, ?pcA, ?pcB, ?spA, ?spB,
    ?regA, ?regB, ?ovA, ?ovB, ?litA, ?litB, ?memA, ?memB, ?oneSlot⟩
  case popPeek => rintro rfl rfl; exact ⟨rfl, rfl⟩
  case pushPop =>
    rintro rfl rfl
    exact ⟨rfl, rfl, (basicOperands_sp _ _ s).trans (neg_add_cancel_right s.sp 1)⟩
  case memNext => rintro hextra rfl; exact basicOperands_slotB_memNext hextra s
  case pcA => rintro rfl; exact (basicOperands_pc .pc ob s).trans (congrArg (· + pcMove ob) (BitVec.add_zero s.pc))
  case pcB => rintro rfl; exact (basicOperands_pc oa .pc s).trans (BitVec.add_zero _)
  case spA => rintro rfl; exact (basicOperands_sp .sp ob s).trans (congrArg (· + spMove ob) (BitVec.add_zero s.sp))
  case spB => rintro rfl; exact (basicOperands_sp oa .sp s).trans (BitVec.add_zero _)
  case regA => rintro r rfl; exact basicOperands_a_of_slotA rfl nofun nofun
  case regB => rintro r rfl; exact basicOperands_b_of_slotB rfl nofun nofun
  case ovA => rintro rfl; exact basicOperands_a_of_slotA rfl nofun nofun
  case ovB => rintro rfl; exact basicOperands_b_of_slotB rfl nofun nofun
  case litA => rintro v rfl; exact readSlot_lit v x.state
  case litB => rintro v rfl; exact readSlot_lit v x.state
  case memA => exact fun m h => basicOperands_a_of_slotA h nofun nofun
  case memB => exact fun m h => basicOperands_b_of_slotB h nofun nofun
  case oneSlot => exact fun h => congrArg (readSlot · x.state) h

/-- Settles O9: each code resolves as its operand (`resolve_code`), and that operand resolves in place. -/
theorem plainOperandCodesResolveInPlace : Obligations.PlainOperandCodesResolveInPlace := by
  intro s
  have code (d : Operand) := resolve_code d s
  exact ⟨fun r => code (.reg r), fun r => code (.ind r), code .peek, code .sp, code .ov, fun v => code (.lit v)⟩

/-- Settles O10: each code resolves as its operand (`resolve_code`); the indexed sum is `resolve_idx`, and a slot in memory
reads as what was written there. -/
theorem movingOperandCodesResolve : Obligations.MovingOperandCodesResolve := by
  intro s t v
  have code (d : Operand) := resolve_code d s
  have written (a : Word) : (writeSlot (.mem a) v t).memRead a = v := State.memWrite_memRead_same t a v
  exact ⟨fun r => (code (.idx r)).trans (resolve_idx r s), code .pop, written s.sp, code .push, rfl, code .pc,
    code .memNext, code .next, rfl, written s.pc⟩

/-- Settles O11: `nextWord_eq` and `readSlot_lit`, and for a register and a memory word a read after a write to the same and
to another place. -/
theorem slotsReadAndWriteTheirLocations : Obligations.SlotsReadAndWriteTheirLocations := by
  intro s v
  refine ⟨nextWord_eq s, fun r => ⟨rfl, ?regSame, ?regOther, rfl⟩, fun a => ⟨rfl, ?memSame, ?memOther, rfl⟩,
    rfl, rfl, rfl, rfl, rfl, rfl, fun n => ⟨readSlot_lit n s, rfl⟩⟩
  case regSame => exact State.setReg_reg_same s r v
  case regOther => exact fun q hq => State.setReg_reg_other s r q v hq
  case memSame => exact State.memWrite_memRead_same s a v
  case memOther => exact fun c hc => State.memWrite_memRead_other s a c v hc

end Sys2Proof.Proofs
end

section
/-! PROOFS of the family "step cycle" (41_step_cycle.md): the fields that decode takes, the instruction a step runs, where
`PC` ends, and what the steps after a failed IF do. First the facts about the model that they share, then the obligations. -/

namespace Sys2Proof

open Sys2Proof.Safety

/-! ### The fields of a word as masked shifts (R70, R135) -/

/-- A field of `n` bits from bit `lo` on, zero-extended, is the word shifted and masked. -/
theorem zeroExtend_extractLsb' (w : Word) (lo : Nat) {n : Nat} (h : n ≤ 16) :
    (w.extractLsb' lo n).zeroExtend 16 = (w >>> lo) &&& BitVec.ofNat 16 (2 ^ n - 1) := by
  have hpow : 2 ^ n ≤ 2 ^ 16 := Nat.pow_le_pow_right two_pos h
  have hpos : 0 < 2 ^ n := Nat.two_pow_pos n
  have hmask : (2 ^ n - 1) % 2 ^ 16 = 2 ^ n - 1 := Nat.mod_eq_of_lt (by omega)
  have hfield : w.toNat >>> lo % 2 ^ n < 2 ^ 16 := (Nat.mod_lt _ hpos).trans_le hpow
  apply BitVec.eq_of_toNat_eq
  rw [BitVec.toNat_setWidth, BitVec.extractLsb'_toNat, Nat.mod_eq_of_lt hfield, BitVec.toNat_and,
    BitVec.toNat_ushiftRight, BitVec.toNat_ofNat, hmask, Nat.and_two_pow_sub_one_eq_mod]

theorem zeroExtend_opField (w : Word) : (opField w).zeroExtend 16 = w &&& 0xF := by
  rw [opField, zeroExtend_extractLsb' w 0 (by decide), BitVec.ushiftRight_zero]
  rfl

theorem zeroExtend_midField (w : Word) : (midField w).zeroExtend 16 = (w >>> 4) &&& 0x3F :=
  zeroExtend_extractLsb' w 4 (by decide)

theorem zeroExtend_highField (w : Word) : (highField w).zeroExtend 16 = (w >>> 10) &&& 0x3F :=
  zeroExtend_extractLsb' w 10 (by decide)

/-- R71: the mask of the opcode field tells the two formats apart. -/
theorem opField_eq_zero_iff (w : Word) : opField w = 0#4 ↔ w &&& 0xF = 0 := by
  rw [← zeroExtend_opField]
  generalize opField w = op
  revert op
  decide

/-! ### The operands of an instruction and of its first word (R70, R76, R113) -/

/-- R71: an extended word is JSR or undefined, with no destination and no condition. -/
theorem kinds_of_decodeExtended (ext : BitVec 6) (a : Operand) :
    destination (decodeExtended ext a) = none ∧ condition (decodeExtended ext a) = none ∧
      (decodeExtended ext a = .jsr a ∨ decodeExtended ext a = .undefExt ext a) := by
  unfold decodeExtended
  split
  · exact ⟨rfl, rfl, .inl rfl⟩
  · exact ⟨rfl, rfl, .inr rfl⟩

/-- R70: an instruction of the basic format has the operands of its first word's middle and high field. -/
theorem resolvedOperands_of_opField_ne_zero {i : Instr} (h : opField (encodeFirst i) ≠ 0#4) :
    resolvedOperands i = [decodeOperand (midField (encodeFirst i)), decodeOperand (highField (encodeFirst i))] := by
  cases i with
  | set a b | add a b | sub a b | mul a b | div a b | mod a b | shl a b | shr a b | and a b | bor a b | xor a b
  | ife a b | ifn a b | ifg a b | ifb a b => simp [resolvedOperands, encodeFirst, encodeBasic]
  | jsr a | undefExt ext a => simp [encodeFirst, encodeExtended] at h

/-- R76: the extra words are those of the operands that the instruction resolves. -/
theorem extraWords_eq_sum (i : Instr) : i.extraWords = ((resolvedOperands i).map Operand.extra).sum := by
  cases i <;> rfl

/-- R85: the instruction at the head of a run is decoded from the run's first word. -/
theorem decode_of_decodeWords_cons {w : Word} {rest extras after : List Word} {i : Instr}
    (h : decodeWords (w :: rest) = .ok (i, extras, after)) : decode w = i := by
  simp only [decodeWords] at h
  split at h
  · cases h
  · cases h
    rfl

/-- What the decoder reads from a table word is decoded from the first of its words. -/
theorem decode_of_decodeTableWord {nbits w : Nat} {i : Instr} (h : decodeTableWord nbits w = some i) :
    decode (trunc16 (w % 2 ^ nbits)) = i := by
  unfold decodeTableWord at h
  split at h
  · next j _ _ hrun => exact (decode_of_decodeWords_cons hrun).trans (Option.some.inj h)
  · cases h

end Sys2Proof

namespace Sys2Proof.Machine

open Sys2Proof.Safety

/-! ### Storing a run of words (R51, R56) -/

/-- A word outside the run reads as before. -/
theorem State.storeWords_memRead_other (ws : List Word) (s : State) (b a : Word)
    (h : ∀ k < ws.length, a ≠ b + BitVec.ofNat 16 k) : (s.storeWords b ws).memRead a = s.memRead a := by
  induction ws generalizing s b with
  | nil => rfl
  | cons w ws ih =>
    have hhead : a ≠ b := by simpa using h 0 (Nat.succ_pos _)
    have htail (k : Nat) (hk : k < ws.length) : a ≠ b + 1 + BitVec.ofNat 16 k := by
      have hne := h (k + 1) (Nat.succ_lt_succ hk)
      rwa [Nat.add_comm, BitVec.ofNat_add, ← BitVec.add_assoc] at hne
    rw [State.storeWords, ih _ _ htail, State.memWrite_memRead_other _ _ _ _ hhead]

/-- A run that does not wrap onto its own start has its first word there. -/
theorem State.storeWords_memRead_head (w : Word) (ws : List Word) (s : State) (b : Word)
    (h : ws.length < 2 ^ 16 - 1) : (s.storeWords b (w :: ws)).memRead b = w := by
  have htail (k : Nat) (hk : k < ws.length) : b ≠ b + 1 + BitVec.ofNat 16 k := by
    have hlen : k < 2 ^ 16 - 1 := hk.trans h
    bv_omega
  rw [State.storeWords, State.storeWords_memRead_other _ _ _ _ htail, State.memWrite_memRead_same]

/-! ### The two kinds of step (R130, R132) -/

/-- R130, R134: a machine that is not halted and not skipping runs the instruction at `PC`, past its first word. -/
theorem step_of_running {s : State} (hh : s.halted = false) (hs : s.skip = false) :
    step s = exec (decode (wordAtPc s)) (s.setPc (s.pc + 1)) := by
  simp only [step, hh, hs, Bool.false_eq_true, if_false]
  rfl

/-- R132: a machine that is skipping takes the skip step. -/
theorem step_of_skipping {s : State} (hh : s.halted = false) (hs : s.skip = true) : step s = .next (skipStep s) := by
  simp [step, hh, hs]

/-- R132, R133: under FullInstruction the skip step is a wrapping move of `PC` by the length of the word there. -/
theorem skipStep_eq (s : State) :
    skipStep s = { s with pc := s.pc + BitVec.ofNat 16 (lengthOfWord (wordAtPc s)), skip := false } := by
  have hpc : trunc16 (s.pc.toNat + lengthOfWord (wordAtPc s))
      = s.pc + BitVec.ofNat 16 (lengthOfWord (wordAtPc s)) := by
    simp [trunc16, BitVec.ofNat_add]
  rw [← hpc]
  rfl

/-- R30, R31: no step ends both halted and skipping. -/
theorem halted_eq_false_of_step_skip {s t : State} (h : step s = .next t) (hskip : t.skip = true) :
    t.halted = false := by
  by_contra hne
  obtain ⟨hs, -, rfl⟩ := step_to_halted h (Bool.eq_true_of_not_eq_false hne)
  exact Bool.false_ne_true (hs.symm.trans hskip)

/-! ### Where a basic instruction leaves `PC` (R142) -/

theorem resolve_slot_eq_pc {o : Operand} {s : State} : (resolve o s).1 = .pc ↔ o = .pc := by
  cases o <;> simp [resolve]

/-- R142: an instruction with two operands whose destination is not `PC` moves `PC` past their extra words. -/
theorem exec_pc {i : Instr} {s t : State} (h : exec i s = .next t) (hlen : (resolvedOperands i).length = 2)
    (hd : destination i ≠ some .pc) : t.pc = s.pc + BitVec.ofNat 16 i.extraWords := by
  rcases exec_frame h with ⟨oa, ob, hops, -, hf⟩ | ⟨oa, rfl, -⟩ | ⟨ext, oa, rfl, -⟩
  · have hpc := hf.pc (by simpa [resolve_slot_eq_pc] using hd)
    simp [hpc, extraWords_eq_sum, hops, pcMove, BitVec.ofNat_add, BitVec.add_assoc]
  · cases hlen
  · cases hlen

end Sys2Proof.Machine

/-! ### The obligations -/

namespace Sys2Proof.Proofs

open Sys2Proof.Machine Sys2Proof.Safety

/-- Settles O38: `u` is the state after the fetch of the first word placed (`State.storeWords_memRead_head`), which is the
word the decoder read (`decode_of_decodeTableWord`); storing the three words changes nothing else. -/
theorem placedWordIsTheNextInstructionRun : Obligations.PlacedWordIsTheNextInstructionRun := by
  intro s nbits w i hi
  have hword : wordAtPc (s.withFetchWord nbits w) = trunc16 (w % 2 ^ nbits) := by
    simp [wordAtPc, State.withFetchWord, placeAtPc, tableWords, State.storeWords_memRead_head]
  have hdec : decode (wordAtPc (s.withFetchWord nbits w)) = i := hword ▸ decode_of_decodeTableWord hi
  have hpc : (s.withFetchWord nbits w).pc = s.pc := State.storeWords_pc _ s s.pc
  refine ⟨(s.withFetchWord nbits w).setPc ((s.withFetchWord nbits w).pc + 1), hdec ▸ step_of_running rfl rfl,
    congrArg (· + 1) hpc, State.storeWords_sp _ s s.pc, State.storeWords_o _ s s.pc, State.storeWords_regs _ s s.pc, rfl,
    rfl, fun a h0 h1 h2 => State.storeWords_memRead_other (tableWords nbits w) s s.pc a fun k hk => ?_⟩
  have hlen : k < 3 := hk
  interval_cases k
  · simpa using h0
  · exact h1
  · exact h2

/-- Settles O42: the fetch moves `PC` by one and the instruction moves it by its extra words (`exec_pc`), together the
length read off the word (`lengthOfWord_eq`). -/
theorem pcEndsPastTheBasicInstruction : Obligations.PcEndsPastTheBasicInstruction := by
  intro s t h hs hlen hd
  obtain ⟨-, ⟨hs', -⟩ | ⟨-, hexec⟩⟩ := step_cases h
  · exact absurd hs' (Bool.eq_false_iff.mp hs)
  · calc t.pc = s.pc + 1 + BitVec.ofNat 16 (decode (wordAtPc s)).extraWords := exec_pc hexec hlen hd
      _ = s.pc + BitVec.ofNat 16 (lengthOfWord (wordAtPc s)) := by
        rw [lengthOfWord_eq, Instr.length, BitVec.ofNat_add, BitVec.add_assoc]
        rfl

/-- Settles O43: the machine that skips is not halted (`halted_eq_false_of_step_skip`), so its next step is the skip step,
and the state that leaves is running. -/
theorem failedIfSkipsExactlyOneInstruction : Obligations.FailedIfSkipsExactlyOneInstruction := by
  intro s t h hskip u
  have hrun : t.halted = false := halted_eq_false_of_step_skip h hskip
  have hu : skipStep t = u := by rw [skipStep_eq, lengthOfWord_eq]
  exact ⟨hu ▸ step_of_skipping hrun hskip, step_of_running hrun rfl⟩

/-- Settles O4: each field is a masked shift; the opcode mask decides the format (`opField_eq_zero_iff`), and a basic word's
operands are read off it as the encoding of its instruction. -/
theorem decodeTakesTheFieldsOfTheWord : Obligations.DecodeTakesTheFieldsOfTheWord := by
  intro w
  refine ⟨zeroExtend_opField w, zeroExtend_midField w, zeroExtend_highField w, fun h => ?extended, fun h => ?basic⟩
  case extended =>
    rw [decode_of_opField_eq_zero ((opField_eq_zero_iff w).mpr h)]
    exact kinds_of_decodeExtended _ _
  case basic =>
    have henc : encodeFirst (decode w) = w := (encodeFirst_decode w).2
    have hop : opField (encodeFirst (decode w)) ≠ 0#4 := by rwa [henc, ne_eq, opField_eq_zero_iff]
    have hops := resolvedOperands_of_opField_ne_zero hop
    rwa [henc] at hops

/-- Settles O37: every decoded instruction is well formed (`encodeFirst_decode`), and a running machine's step is
`step_of_running`. -/
theorem stepRunsTheDecodedInstruction : Obligations.StepRunsTheDecodedInstruction := by
  rintro s i hh hs rfl
  exact ⟨(encodeFirst_decode _).1, step_of_running hh hs⟩

end Sys2Proof.Proofs
end

section
/-! PROOFS of the family "basic ALU" (42_basic_alu.md): what each basic instruction writes, that result and overflow value
together are exact, two operands that name one location, and SET PUSH, POP. First the facts about the model that they share,
then the obligations. -/

namespace Sys2Proof

/-! ### Natural numbers as words (R9) -/

theorem toNat_trunc16 (n : Nat) : (trunc16 n).toNat = n % 65536 := BitVec.toNat_ofNat n 16

theorem toNat_trunc16_of_lt {n : Nat} (h : n < 65536) : (trunc16 n).toNat = n := by
  rw [toNat_trunc16, Nat.mod_eq_of_lt h]

/-- A number of at most 32 bits is its high and its low half. -/
theorem trunc16_halves {n : Nat} (h : n < 65536 * 65536) :
    (trunc16 (n / 65536)).toNat * 65536 + (trunc16 n).toNat = n := by
  rw [toNat_trunc16, toNat_trunc16]
  omega

theorem toNat_word_eq_zero_iff {a : Word} : a.toNat = 0 ↔ a = 0 := BitVec.toNat_inj (y := 0)

theorem toNat_mul_lt_of_le {n : Nat} (a : Word) (h : n ≤ 65536) : a.toNat * n < 65536 * 65536 :=
  Nat.mul_lt_mul_of_lt_of_le a.isLt h (Nat.succ_pos _)

end Sys2Proof

namespace Sys2Proof.Machine

open Sys2Proof.Safety

/-! ### Results and overflow values as numbers (R152–R158) -/

/-- R152: the carry of two words. -/
theorem addOverflow_eq (a b : Word) :
    addOverflow a b = if a.toNat + b.toNat > 0xFFFF then 0x0001 else 0x0000 := by
  have ha := a.isLt
  have hb := b.isLt
  apply BitVec.eq_of_toNat_eq
  rw [addOverflow, toNat_trunc16]
  split
  · have hquot : (a.toNat + b.toNat) / 2 ^ 16 = 1 := by omega
    rw [hquot]; rfl
  · have hquot : (a.toNat + b.toNat) / 2 ^ 16 = 0 := by omega
    rw [hquot]; rfl

/-- SUB's result is the 16-bit difference. -/
theorem subResult_eq_sub (a b : Word) : subResult a b = a - b := by
  have hb := b.isLt
  apply BitVec.eq_of_toNat_eq
  rw [subResult, truncInt16, BitVec.toNat_ofInt, BitVec.toNat_sub]
  omega

/-- R153: nothing is borrowed from a word by itself. -/
theorem subOverflow_self (p : SubOverflowPolicy) (a : Word) : subOverflow p a a = 0x0000 := by
  cases p with
  | borrowAllOnes | borrowOne => exact if_neg (BitVec.lt_irrefl a)
  | alwaysZero => rfl

/-- R154: the high half of a product of two words is a word. -/
theorem toNat_mulOverflow (a b : Word) : (mulOverflow a b).toNat = a.toNat * b.toNat / 65536 :=
  toNat_trunc16_of_lt (Nat.div_lt_of_lt_mul (toNat_mul_lt_of_le a b.isLt.le))

theorem toNat_divQuotient (a b : Word) : (divQuotient false a b).toNat = a.toNat / b.toNat :=
  toNat_trunc16_of_lt ((Nat.div_le_self _ _).trans_lt a.isLt)

theorem toNat_divQuotient_legacy (a b : Word) :
    (divQuotient true a b).toNat = a.toNat / b.toNat * 0xFFFF % 65536 := toNat_trunc16 _

theorem toNat_modResult (a b : Word) :
    (modResult a b).toNat = if b.toNat = 0 then 0 else a.toNat % b.toNat := by
  by_cases hb : b = 0
  · subst hb; rfl
  · rw [modResult, if_neg hb, if_neg (mt toNat_word_eq_zero_iff.mp hb)]
    exact toNat_trunc16_of_lt ((Nat.mod_le _ _).trans_lt a.isLt)

theorem toNat_shrResult (a b : Word) : (shrResult a b).toNat = a.toNat / 2 ^ b.toNat :=
  toNat_trunc16_of_lt ((Nat.div_le_self _ _).trans_lt a.isLt)

/-- R155, R158: the whole part of `a / d` and the 16 bits after its point are the two halves of `a * 65536 / d`. -/
theorem quotient_fraction_exact (a : Word) (d : Nat) :
    (trunc16 (a.toNat / d)).toNat * 65536 + (trunc16 (a.toNat * 65536 / d)).toNat = a.toNat * 65536 / d := by
  have hwhole : a.toNat / d = a.toNat * 65536 / d / 65536 := by
    rw [Nat.div_div_eq_div_mul, Nat.mul_div_mul_right _ _ (Nat.succ_pos _)]
  rw [hwhole]
  exact trunc16_halves ((Nat.div_le_self _ _).trans_lt (toNat_mul_lt_of_le a le_rfl))

/-- R153: `O`, read as a signed number, is what the difference borrowed. -/
theorem sub_borrow_exact (a b : Word) :
    (subOverflow .borrowAllOnes a b).toInt * 65536 + (subResult a b).toNat = (a.toNat : Int) - b.toNat := by
  have ha := a.isLt
  have hb := b.isLt
  rw [subResult_eq_sub, subOverflow]
  split
  · next hlt =>
    have hborrow : (0xFFFF : Word).toInt = -1 := rfl
    have hlt' : a.toNat < b.toNat := hlt
    have hdiff := BitVec.toNat_sub_of_lt hlt
    omega
  · next hge =>
    have hborrow : (0x0000 : Word).toInt = 0 := rfl
    have hle : b.toNat ≤ a.toNat := BitVec.not_lt.mp hge
    have hdiff := BitVec.toNat_sub_of_le hle
    omega

/-! ### The three shared writes (R122, R150) -/

theorem writesResult_writeResult (oa ob : Operand) (s : State) (r : Word) :
    WritesResult oa ob s (writeResult (basicOperands oa ob s) r) r where
  result hw := readSlot_writeSlot _ r _ hw
  o hne := (writeSlot_o _ r _ hne).trans (basicOperands_o oa ob s)
  skip := (writeResult_skip _ r).trans (basicOperands_skip oa ob s)
  frame := writeResult_frame oa ob s r

theorem writesResultThenOverflow_writeResultThenO (oa ob : Operand) (s : State) (r ov : Word) :
    WritesResultThenOverflow oa ob s (writeResultThenO (basicOperands oa ob s) r ov) r ov where
  result hw hne := (readSlot_setO _ ov _ hne).trans (readSlot_writeSlot _ r _ hw)
  o := rfl
  skip := (writeResultThenO_skip _ r ov).trans (basicOperands_skip oa ob s)
  frame := writeResultThenO_frame oa ob s r ov

theorem writesOverflowThenResult_writeOThenResult (oa ob : Operand) (s : State) (r ov : Word) :
    WritesOverflowThenResult oa ob s (writeOThenResult (basicOperands oa ob s) r ov) r ov where
  result hw := readSlot_writeSlot _ r _ hw
  o hne := writeSlot_o _ r _ hne
  skip := (writeOThenResult_skip _ r ov).trans (basicOperands_skip oa ob s)
  frame := writeOThenResult_frame oa ob s r ov

/-! ### The instructions with a parameter (R153, R155) -/

/-- R153 under any SubOverflowPolicy. -/
theorem execSubWith_writes (p : SubOverflowPolicy) (oa ob : Operand) (s : State) :
    ∃ t, execSubWith p oa ob s = .next t ∧ WritesResultThenOverflow oa ob s t
      ((basicOperands oa ob s).a - (basicOperands oa ob s).b)
      (subOverflow p (basicOperands oa ob s).a (basicOperands oa ob s).b) := by
  rw [← subResult_eq_sub]
  exact ⟨_, rfl, writesResultThenOverflow_writeResultThenO oa ob s _ _⟩

/-- R155 under any DivLegacyQuotient, with the number `n` that the quotient is. -/
theorem execDivWith_writes {legacy : Bool} {oa ob : Operand} {s : State} {n : Nat}
    (hn : (divQuotient legacy (basicOperands oa ob s).a (basicOperands oa ob s).b).toNat = n) :
    ∃ t, execDivWith legacy oa ob s = .next t ∧
      if (basicOperands oa ob s).b.toNat = 0 then WritesResultThenOverflow oa ob s t 0x0000 0x0000
      else ∃ q f : Word, q.toNat = n ∧
        f.toNat = (basicOperands oa ob s).a.toNat * 65536 / (basicOperands oa ob s).b.toNat % 65536 ∧
        WritesOverflowThenResult oa ob s t q f := by
  refine ⟨_, rfl, ?_⟩
  by_cases hb : (basicOperands oa ob s).b = 0
  · rw [if_pos hb, if_pos (toNat_word_eq_zero_iff.mpr hb)]
    exact writesResultThenOverflow_writeResultThenO oa ob s _ _
  · rw [if_neg hb, if_neg (mt toNat_word_eq_zero_iff.mp hb)]
    exact ⟨_, _, hn, toNat_trunc16 _, writesOverflowThenResult_writeOThenResult oa ob s _ _⟩

/-! ### Rewriting a word with itself (R56) -/

/-- With memory in canonical form, writing back the word that an address holds changes nothing. -/
theorem Memory.write_read_self {m : Memory} (h : Memory.wf m = true) (a : Word) :
    Memory.write m a (Memory.read m a) = m := by
  refine Memory.eq_of_read_eq (Memory.write_wf m a _ h) h fun c => ?_
  rw [Memory.read_write]
  split
  · next hca => rw [hca]
  · rfl

theorem State.memWrite_memRead_self {s : State} (h : Memory.wf s.mem = true) (a : Word) :
    s.memWrite a (s.memRead a) = s :=
  congrArg (fun m => { s with mem := m }) (Memory.write_read_self h a)

/-- R104, R106: PUSH then POP leaves the state as it was. -/
theorem basicOperands_push_pop_state (s : State) : (basicOperands .push .pop s).state = s := by
  have hsp : s.sp + spMove .push + spMove .pop = s.sp := neg_add_cancel_right s.sp 1
  have hpc : s.pc + pcMove .push + pcMove .pop = s.pc := by simp [pcMove, Operand.extra]
  rw [basicOperands_state, hsp, hpc]

end Sys2Proof.Machine

/-! ### The obligations -/

namespace Sys2Proof.Proofs

open Sys2Proof.Machine Sys2Proof.Safety

/-- Settles O14: SET's one write is operand B's value to operand A's slot. -/
theorem setWritesTheSource : Obligations.SetWritesTheSource := fun oa ob s =>
  ⟨_, rfl, writesResult_writeResult oa ob s _⟩

/-- Settles O15: the overflow value is the carry (`addOverflow_eq`). -/
theorem addWritesSumAndCarry : Obligations.AddWritesSumAndCarry := by
  intro oa ob s n
  refine ⟨_, addResult _ _, rfl, toNat_trunc16 n, ?_⟩
  rw [← addOverflow_eq]
  exact writesResultThenOverflow_writeResultThenO oa ob s _ _

/-- Settles O16: `execSubWith_writes` at the default and at each of the three policies. -/
theorem subWritesDifferenceAndBorrow : Obligations.SubWritesDifferenceAndBorrow := fun oa ob s =>
  ⟨execSubWith_writes params.subOverflow oa ob s, execSubWith_writes .borrowAllOnes oa ob s,
    execSubWith_writes .borrowOne oa ob s, execSubWith_writes .alwaysZero oa ob s⟩

/-- Settles O17: the high half of the product of two words is a word (`toNat_mulOverflow`). -/
theorem mulWritesLowAndHighHalves : Obligations.MulWritesLowAndHighHalves := fun oa ob s =>
  ⟨_, mulResult _ _, _, rfl, toNat_trunc16 _, toNat_mulOverflow _ _,
    writesResultThenOverflow_writeResultThenO oa ob s _ _⟩

/-- Settles O18: `execDivWith_writes` at both values of DivLegacyQuotient. -/
theorem divWritesQuotientAndFraction : Obligations.DivWritesQuotientAndFraction := fun _ _ _ =>
  ⟨execDivWith_writes (toNat_divQuotient _ _), execDivWith_writes (toNat_divQuotient_legacy _ _)⟩

/-- Settles O19: MOD's one write is the remainder (`toNat_modResult`). -/
theorem modWritesRemainder : Obligations.ModWritesRemainder := fun oa ob s =>
  ⟨_, _, rfl, toNat_modResult _ _, writesResult_writeResult oa ob s _⟩

/-- Settles O20: result and overflow value are `trunc16` of the exact numbers. -/
theorem shlWritesShiftedAndShiftedOutBits : Obligations.ShlWritesShiftedAndShiftedOutBits := fun oa ob s =>
  ⟨_, shlResult _ _, shlOverflow _ _, rfl, toNat_trunc16 _, toNat_trunc16 _,
    writesResultThenOverflow_writeResultThenO oa ob s _ _⟩

/-- Settles O21: the shifted value is a word (`toNat_shrResult`); the overflow value is `trunc16` of the exact number. -/
theorem shrWritesShiftedAndShiftedOutBits : Obligations.ShrWritesShiftedAndShiftedOutBits := fun oa ob s =>
  ⟨_, _, shrOverflow _ _, rfl, toNat_shrResult _ _, toNat_trunc16 _,
    writesResultThenOverflow_writeResultThenO oa ob s _ _⟩

/-- Settles O22: the three results are the bitwise operations, read bit by bit. -/
theorem bitwiseInstructionsWorkBitByBit : Obligations.BitwiseInstructionsWorkBitByBit := fun oa ob s =>
  ⟨⟨_, _, rfl, fun _ => BitVec.getLsbD_and, writesResult_writeResult oa ob s _⟩,
    ⟨_, _, rfl, fun _ => BitVec.getLsbD_or, writesResult_writeResult oa ob s _⟩,
    ⟨_, _, rfl, fun _ => BitVec.getLsbD_xor, writesResult_writeResult oa ob s _⟩⟩

/-- Settles O25: each exact number is below 2^32, so it is its two halves (`trunc16_halves`); SHR and DIV are one lemma
(`quotient_fraction_exact`), and SUB's borrow is `sub_borrow_exact`. -/
theorem resultAndOverflowTogetherAreExact : Obligations.ResultAndOverflowTogetherAreExact := by
  intro a b
  refine ⟨trunc16_halves ?sum, sub_borrow_exact a b, trunc16_halves (toNat_mul_lt_of_le a b.isLt.le),
    fun hb => trunc16_halves ?shl, quotient_fraction_exact a (2 ^ b.toNat),
    fun _ => quotient_fraction_exact a b.toNat⟩
  case sum =>
    have ha := a.isLt
    have hb := b.isLt
    omega
  case shl => exact toNat_mul_lt_of_le a (Nat.pow_le_pow_right two_pos hb)

/-- Settles O28: one slot is read twice in one state, so both values are equal (`hval`). -/
theorem operandsNamingOneLocation : Obligations.OperandsNamingOneLocation := by
  intro oa ob s hslot
  have hval : (basicOperands oa ob s).a = (basicOperands oa ob s).b :=
    congrArg (readSlot · (basicOperands oa ob s).state) hslot
  refine ⟨⟨_, rfl, ?ife⟩, ⟨_, rfl, ?ifn⟩, ⟨_, rfl, ?xor⟩, ?sub⟩
  case ife => simp [skipUnless_skip, hval, ifeHolds]
  case ifn => simp [skipUnless_skip, hval, ifnHolds]
  case xor =>
    have hzero : xorResult (basicOperands oa ob s).a (basicOperands oa ob s).b = 0 := by rw [hval]; exact BitVec.xor_self
    rw [hzero]
    exact writesResult_writeResult oa ob s 0
  case sub =>
    have hsub := execSubWith_writes params.subOverflow oa ob s
    rwa [hval, BitVec.sub_self, subOverflow_self] at hsub

/-- Settles O29: the state after both resolutions is the state before (`basicOperands_push_pop_state`), and the write puts
back the word that it holds (`State.memWrite_memRead_self`). -/
theorem setPushPopChangesNothing : Obligations.SetPushPopChangesNothing := by
  intro s hs
  have hstate := basicOperands_push_pop_state s
  calc exec (.set .push .pop) s
      = .next ((basicOperands .push .pop s).state.memWrite (s.sp - 1)
          ((basicOperands .push .pop s).state.memRead (s.sp - 1))) := rfl
    _ = .next s := by rw [hstate, State.memWrite_memRead_self hs]

end Sys2Proof.Proofs
end

section
/-! PROOFS of the family "conditionals" (43_conditionals.md): each IF completes and sets `skip` exactly when its condition
fails. First when each condition fails, then what any IF does, then the obligations. -/

namespace Sys2Proof.Machine

open Sys2Proof.Safety

/-! ### When each condition fails (R181–R184) -/

theorem ifeHolds_eq_false_iff (a b : Word) : ifeHolds a b = false ↔ a.toNat ≠ b.toNat := by
  rw [ifeHolds, beq_eq_false_iff_ne, ne_eq, ne_eq, BitVec.toNat_inj]

theorem ifnHolds_eq_false_iff (a b : Word) : ifnHolds a b = false ↔ a.toNat = b.toNat := by
  rw [ifnHolds, bne_eq_false_iff_eq, BitVec.toNat_inj]

theorem ifgHolds_eq_false_iff (a b : Word) : ifgHolds a b = false ↔ a.toNat ≤ b.toNat := by
  rw [ifgHolds, decide_eq_false_iff_not, BitVec.not_lt, BitVec.le_def]

theorem ifbHolds_eq_false_iff (a b : Word) :
    ifbHolds a b = false ↔ ∀ k, ¬(a.getLsbD k = true ∧ b.getLsbD k = true) := by
  rw [ifbHolds, bne_eq_false_iff_eq]
  refine BitVec.zero_iff_eq_false.trans (forall_congr' fun k => ?_)
  rw [BitVec.getLsbD_and, ← Bool.not_eq_true, Bool.and_eq_true]

/-! ### What any IF does (R180) -/

/-- An IF whose condition is false exactly when `fails` holds sets `skip` exactly then; the rest of its state is the
resolved one. -/
theorem skipsWhen_skipUnless {holds : Word → Word → Bool} {fails : Prop} {oa ob : Operand} {s : State}
    (h : holds (basicOperands oa ob s).a (basicOperands oa ob s).b = false ↔ fails) :
    SkipsWhen fails oa ob s (skipUnless holds oa ob s) where
  skip := by
    rw [skipUnless_skip, ← h]
    split
    · next hheld => simp [hheld]
    · next hfailed => simp [hfailed]
  o := skipUnless_o holds oa ob s
  frame := skipUnless_frame holds oa ob s

end Sys2Proof.Machine

/-! ### The obligations -/

namespace Sys2Proof.Proofs

open Sys2Proof.Machine Sys2Proof.Safety

/-- Settles O31: two words are equal exactly when their numbers are. -/
theorem ifeAndIfnSkipOnTheirFalseCondition : Obligations.IfeAndIfnSkipOnTheirFalseCondition := fun _ _ _ =>
  ⟨⟨_, rfl, skipsWhen_skipUnless (ifeHolds_eq_false_iff _ _)⟩,
    ⟨_, rfl, skipsWhen_skipUnless (ifnHolds_eq_false_iff _ _)⟩⟩

/-- Settles O32: `a` is not above `b` unsigned; `a &&& b` is zero exactly when no bit is set in both. -/
theorem ifgAndIfbSkipOnTheirFalseCondition : Obligations.IfgAndIfbSkipOnTheirFalseCondition := fun _ _ _ =>
  ⟨⟨_, rfl, skipsWhen_skipUnless (ifgHolds_eq_false_iff _ _)⟩,
    ⟨_, rfl, skipsWhen_skipUnless (ifbHolds_eq_false_iff _ _)⟩⟩

end Sys2Proof.Proofs
end

section
/-! PROOFS of the family "extended" (44_extended.md): JSR under both orders, the undefined extended opcodes, and the return
by SET PC, POP. First the state that each leaves, then the obligations. -/

namespace Sys2Proof.Machine

open Sys2Proof.Safety

/-! ### The state that JSR leaves (R191) -/

/-- ResolveThenPush: both moves of `SP` come before the store, and the word stored is `PC` past the extra word. -/
theorem jsrResolveThenPush_eq (oa : Operand) (s : State) :
    jsrResolveThenPush oa s = { s with
      pc := readSlot (resolve oa s).1 (resolve oa s).2
      sp := s.sp + spMove oa - 1
      mem := Memory.write s.mem (s.sp + spMove oa - 1) (s.pc + pcMove oa) } := by
  rw [jsrResolveThenPush, resolve_state]
  rfl

/-- PushThenResolve: the store comes first, with `PC` and `SP` as they were given, and the operand sees it. -/
theorem jsrPushThenResolve_eq (oa : Operand) (s : State) :
    jsrPushThenResolve oa s = { s with
      pc := readSlot (resolve oa (push s.pc s)).1 (resolve oa (push s.pc s)).2
      sp := s.sp - 1 + spMove oa
      mem := Memory.write s.mem (s.sp - 1) s.pc } := by
  rw [jsrPushThenResolve, resolve_state]
  rfl

theorem exec_jsr (oa : Operand) (s : State) : exec (.jsr oa) s = .next (jsrResolveThenPush oa s) := rfl

theorem jsrResolveThenPush_memRead_sp (oa : Operand) (s : State) :
    (jsrResolveThenPush oa s).memRead (jsrResolveThenPush oa s).sp = s.pc + pcMove oa := by
  rw [jsrResolveThenPush_eq]
  exact State.memWrite_memRead_same s _ _

/-! ### The call and the return as steps (R76, R193) -/

theorem exists_eq_jsr_of_isJsr {i : Instr} (h : isJsr i = true) : ∃ oa, i = .jsr oa := by
  cases i <;> cases h
  exact ⟨_, rfl⟩

/-- The fetch and a JSR's operand together move `PC` by the whole instruction. -/
theorem pc_add_pcMove_of_decode_jsr {w : Word} {oa : Operand} (h : decode w = .jsr oa) (pc : Word) :
    pc + 1 + pcMove oa = pc + BitVec.ofNat 16 (lengthOfWord w) := by
  rw [lengthOfWord_eq, h, Instr.length, BitVec.ofNat_add, BitVec.add_assoc]
  rfl

/-- A step that runs a JSR leaves the address after the whole instruction on top of the stack. -/
theorem memRead_sp_of_step_jsr {s t : State} (hs : s.skip = false) (hj : isJsr (decode (wordAtPc s)) = true)
    (h : step s = .next t) : t.memRead t.sp = s.pc + BitVec.ofNat 16 (lengthOfWord (wordAtPc s)) := by
  obtain ⟨oa, hoa⟩ := exists_eq_jsr_of_isJsr hj
  rw [step_of_running (step_cases h).1 hs, hoa, exec_jsr] at h
  cases h
  rw [jsrResolveThenPush_memRead_sp]
  exact pc_add_pcMove_of_decode_jsr hoa s.pc

/-- SET PC, POP: the word on top of the stack becomes `PC`, and `SP` moves up past it. -/
theorem exec_set_pc_pop (s : State) :
    exec (.set .pc .pop) s = .next { s with pc := s.memRead s.sp, sp := s.sp + 1 } := rfl

theorem decode_set_pc_pop : decode 0x61C1 = .set .pc .pop := rfl

/-- A step that runs the word 0x61C1; the fetch's move of `PC` is overwritten. -/
theorem step_set_pc_pop {s : State} (hh : s.halted = false) (hs : s.skip = false) (hw : wordAtPc s = 0x61C1) :
    step s = .next { s with pc := s.memRead s.sp, sp := s.sp + 1 } := by
  rw [step_of_running hh hs, hw, decode_set_pc_pop, exec_set_pc_pop]
  rfl

end Sys2Proof.Machine

/-! ### The obligations -/

namespace Sys2Proof.Proofs

open Sys2Proof.Machine Sys2Proof.Safety

/-- Settles O33: the state that JSR leaves is `jsrResolveThenPush_eq`, whose one store is the return address. -/
theorem jsrPushesReturnAddressAndJumps : Obligations.JsrPushesReturnAddressAndJumps := fun oa s =>
  ⟨_, congrArg Host.Outcome.next (jsrResolveThenPush_eq oa s), rfl, rfl, State.memWrite_memRead_same s _ _,
    fun a ha => State.memWrite_memRead_other s _ a _ ha, fun _ => rfl, rfl, rfl, rfl⟩

/-- Settles O34: `pushed` is the state after the push, and the state that JSR leaves is `jsrPushThenResolve_eq`. -/
theorem jsrUnderPushThenResolve : Obligations.JsrUnderPushThenResolve := fun oa s =>
  ⟨_, congrArg Host.Outcome.next (jsrPushThenResolve_eq oa s), rfl, rfl, State.memWrite_memRead_same s _ _,
    fun a ha => State.memWrite_memRead_other s _ a _ ha, fun _ => rfl, rfl, rfl, rfl⟩

/-- Settles O36: the JSR left the return address on top of the stack (`memRead_sp_of_step_jsr`), and `u` still has it there
when 0x61C1 takes it (`step_set_pc_pop`). -/
theorem returnByPopUndoesTheCall : Obligations.ReturnByPopUndoesTheCall := by
  intro s t u v hs hj hcall hskip hsp hkept hword hreturn
  rw [step_set_pc_pop (step_cases hreturn).1 hskip hword] at hreturn
  cases hreturn
  refine ⟨?_, congrArg (· + 1) hsp, rfl⟩
  calc u.memRead u.sp
      = t.memRead t.sp := by rw [hsp, hkept]
    _ = s.pc + BitVec.ofNat 16 (lengthOfWord (wordAtPc s)) := memRead_sp_of_step_jsr hs hj hcall

/-- Settles O35: the Halt event sets one field, and the operand is not resolved. -/
theorem undefinedExtendedOpcodesHalt : Obligations.UndefinedExtendedOpcodesHalt := fun _ _ _ => rfl

end Sys2Proof.Proofs
end

section
/-! PROOFS of the family "exceptions" (60_exceptions.md): the step that halts, and the fault after it. -/

namespace Sys2Proof.Machine

open Sys2Proof.Safety

/-- R192, R200: the step that runs a halting word is the fetch and the Halt event. `step_to_halted` is the converse. -/
theorem step_of_haltingWord {s : State} (hh : s.halted = false) (hs : s.skip = false)
    (hw : haltingWord (wordAtPc s) = true) : step s = .next (raiseHalt (s.setPc (s.pc + 1))) := by
  obtain ⟨ext, oa, hdec⟩ := (haltingWord_iff _).mp hw
  rw [step_of_running hh hs, hdec]
  rfl

end Sys2Proof.Machine

/-! ### The obligations -/

namespace Sys2Proof.Proofs

open Sys2Proof.Machine Sys2Proof.Safety

/-- Settles O41: the step is `step_of_haltingWord`; its fetch moved `PC` by one with wrapping, so one back is the halting
word; a halted machine's step is the fault (`stepGoesOnExactlyWhenNotHalted`). -/
theorem haltIsPreciseAndTerminal : Obligations.HaltIsPreciseAndTerminal := by
  intro s hh hs hw t
  have hback : t.pc - 1 = s.pc := BitVec.add_sub_cancel s.pc 1
  exact ⟨step_of_haltingWord hh hs hw, congrArg s.memRead hback, (stepGoesOnExactlyWhenNotHalted t).1 rfl⟩

end Sys2Proof.Proofs
end

section
/-! PROOFS of the family "reset and hazards" (70_reset_and_hazards.md): the first step of a machine with nothing loaded. -/

namespace Sys2Proof.Machine

open Sys2Proof.Safety

/-- R83, R234: 0x0000 is the undefined extended opcode 0x00, so a word that nothing was stored in halts if executed. -/
theorem haltingWord_zero : haltingWord 0x0000 = true := (haltingWord_iff _).mpr ⟨0x00, .reg .A, rfl⟩

end Sys2Proof.Machine

/-! ### The obligations -/

namespace Sys2Proof.Proofs

open Sys2Proof.Machine Sys2Proof.Safety

/-- Settles O54: after reset every word is 0x0000 (`resetValues`), so the step is that of a halting word
(`step_of_haltingWord`), and its fetch moved `PC` from 0 to 1. -/
theorem firstStepOnEmptyMemoryHalts : Obligations.FirstStepOnEmptyMemoryHalts := by
  obtain ⟨hmem, -, -, -, -, hskip, hrun⟩ := resetValues
  have hword : wordAtPc State.reset = 0x0000 := hmem State.reset.pc
  exact step_of_haltingWord hrun hskip (hword ▸ haltingWord_zero)

end Sys2Proof.Proofs
end

section
/-! PROOFS of the family "other": SUB's borrow value and the corners of the shift count, words written out in the spec,
literal destinations and `O` as destination, the skip step, and how the block answers its host. First the facts about the
model that they share, then the obligations. -/

namespace Sys2Proof

/-! ### Multiplying and dividing by powers of two (R157, R158) -/

theorem mul_two_pow_div_of_le (n : Nat) {i j : Nat} (h : i ≤ j) : n * 2 ^ i / 2 ^ j = n / 2 ^ (j - i) := by
  have hsplit : 2 ^ j = 2 ^ (j - i) * 2 ^ i := by rw [← Nat.pow_add, Nat.sub_add_cancel h]
  rw [hsplit, Nat.mul_div_mul_right _ _ (Nat.two_pow_pos i)]

theorem mul_two_pow_div_of_ge (n : Nat) {i j : Nat} (h : j ≤ i) : n * 2 ^ i / 2 ^ j = n * 2 ^ (i - j) := by
  rw [Nat.mul_div_assoc n (Nat.pow_dvd_pow 2 h), Nat.pow_div h Nat.two_pos]

theorem trunc16_mul_two_pow (a : Word) (k : Nat) : trunc16 (a.toNat * 2 ^ k) = a <<< k := by
  rw [← Nat.shiftLeft_eq]
  rfl

theorem trunc16_div_two_pow (a : Word) (k : Nat) : trunc16 (a.toNat / 2 ^ k) = a >>> k := by
  apply BitVec.eq_of_toNat_eq
  rw [BitVec.toNat_ushiftRight, Nat.shiftRight_eq_div_pow]
  exact toNat_trunc16_of_lt ((Nat.div_le_self _ _).trans_lt a.isLt)

end Sys2Proof

namespace Sys2Proof.Machine

open Sys2Proof.Safety

/-! ### The shifts as word shifts (R157, R158) -/

theorem shlResult_eq_shiftLeft (a b : Word) : shlResult a b = a <<< b.toNat := trunc16_mul_two_pow a b.toNat

theorem shrResult_eq_ushiftRight (a b : Word) : shrResult a b = a >>> b.toNat := trunc16_div_two_pow a b.toNat

theorem shlOverflow_of_le {b : Word} (a : Word) (h : b.toNat ≤ 16) : shlOverflow a b = a >>> (16 - b.toNat) := by
  rw [shlOverflow, mul_two_pow_div_of_le _ h, trunc16_div_two_pow]

theorem shlOverflow_of_ge {b : Word} (a : Word) (h : 16 ≤ b.toNat) : shlOverflow a b = a <<< (b.toNat - 16) := by
  rw [shlOverflow, mul_two_pow_div_of_ge _ h, trunc16_mul_two_pow]

theorem shrOverflow_of_le {b : Word} (a : Word) (h : b.toNat ≤ 16) : shrOverflow a b = a <<< (16 - b.toNat) := by
  rw [shrOverflow, mul_two_pow_div_of_ge _ h, trunc16_mul_two_pow]

theorem shrOverflow_of_ge {b : Word} (a : Word) (h : 16 ≤ b.toNat) : shrOverflow a b = a >>> (b.toNat - 16) := by
  rw [shrOverflow, mul_two_pow_div_of_le _ h, trunc16_div_two_pow]

/-! ### Destinations that do not hold the result (R121, R122) -/

theorem writeResult_lit (v : BitVec 5) (ob : Operand) (s : State) (r : Word) :
    writeResult (basicOperands (.lit v) ob s) r = (basicOperands (.lit v) ob s).state := rfl

theorem writeResultThenO_lit (v : BitVec 5) (ob : Operand) (s : State) (r ov : Word) :
    writeResultThenO (basicOperands (.lit v) ob s) r ov = (basicOperands (.lit v) ob s).state.setO ov := rfl

theorem writeOThenResult_lit (v : BitVec 5) (ob : Operand) (s : State) (r ov : Word) :
    writeOThenResult (basicOperands (.lit v) ob s) r ov = (basicOperands (.lit v) ob s).state.setO ov := rfl

/-- The overflow value is written last and stands. -/
theorem writeResultThenO_ov (ob : Operand) (s : State) (r ov : Word) :
    writeResultThenO (basicOperands .ov ob s) r ov = (basicOperands .ov ob s).state.setO ov := rfl

/-- The result is written last and stands. -/
theorem writeOThenResult_ov (ob : Operand) (s : State) (r ov : Word) :
    writeOThenResult (basicOperands .ov ob s) r ov = (basicOperands .ov ob s).state.setO r := rfl

/-! ### DIV by the divisor (R155) -/

theorem exec_div_of_eq_zero {oa ob : Operand} {s : State} (h : (basicOperands oa ob s).b = 0) :
    exec (.div oa ob) s = .next (writeResultThenO (basicOperands oa ob s) 0x0000 0x0000) :=
  congrArg Host.Outcome.next (if_pos h)

theorem exec_div_of_ne_zero {oa ob : Operand} {s : State} (h : (basicOperands oa ob s).b ≠ 0) :
    exec (.div oa ob) s = .next (writeOThenResult (basicOperands oa ob s)
      (divQuotient false (basicOperands oa ob s).a (basicOperands oa ob s).b)
      (divOverflow (basicOperands oa ob s).a (basicOperands oa ob s).b)) :=
  congrArg Host.Outcome.next (if_neg h)

/-! ### The skip step under any policy (R132, R133) -/

/-- A wrapping move of `PC` by the policy's count of words. -/
theorem skipStepWith_eq (p : SkipPolicy) (s : State) :
    skipStepWith p s = { s with pc := s.pc + BitVec.ofNat 16 (skipAdvance p (wordAtPc s)), skip := false } := by
  have hpc : trunc16 (s.pc.toNat + skipAdvance p (wordAtPc s))
      = s.pc + BitVec.ofNat 16 (skipAdvance p (wordAtPc s)) := by
    simp [trunc16, BitVec.ofNat_add]
  rw [← hpc]
  rfl

/-! ### The block's answers (R41, R43) -/

theorem serve_load_of_running {b : Block} (h : b.running = true) (a w : Word) :
    serve (.load a w) b = .refused .loadAfterFirstStep := if_pos h

theorem serve_load_of_not_running {b : Block} (h : b.running = false) (a w : Word) :
    serve (.load a w) b = .next { b with machine := b.machine.memWrite a w } := if_neg (Bool.eq_false_iff.mp h)

theorem serve_step_of_fault {b : Block} {f : Fault} (h : step b.machine = .fault f) : serve .step b = .fault f := by
  simp only [serve, h]

theorem serve_step_of_next {b : Block} {s : State} (h : step b.machine = .next s) :
    serve .step b = .next { machine := s, running := true } := by
  simp only [serve, h]

end Sys2Proof.Machine

/-! ### The obligations -/

namespace Sys2Proof.Proofs

open Sys2Proof.Machine Sys2Proof.Safety

/-- Settles O26: the exact difference is the borrow value times 65536 plus SUB's result (`sub_borrow_exact`), and the result
is a word, so the floor of the division is the borrow value. -/
theorem subBorrowIsTheHighPartOfTheDifference : Obligations.SubBorrowIsTheHighPartOfTheDifference := by
  intro a b
  have hexact := sub_borrow_exact a b
  have hresult := (subResult a b).isLt
  have hfloor : ((a.toNat : Int) - b.toNat).fdiv 65536 = (subOverflow .borrowAllOnes a b).toInt := by
    rw [Int.fdiv_eq_ediv_of_nonneg _ (by decide)]
    omega
  rw [hfloor, BitVec.ofInt_toInt]

/-- Settles O27: every result and overflow value is one word shift on each side of count 16, and a word shifted by 16 or more
is 0. -/
theorem shiftCountCorners : Obligations.ShiftCountCorners := by
  intro a b
  rw [shlResult_eq_shiftLeft, shrResult_eq_ushiftRight]
  split_ifs with hzero hlow hmid
  · subst hzero
    have hle : (0 : Word).toNat ≤ 16 := Nat.zero_le 16
    rw [shlOverflow_of_le a hle, shrOverflow_of_le a hle]
    exact ⟨BitVec.shiftLeft_zero a, BitVec.ushiftRight_eq_zero le_rfl, BitVec.ushiftRight_zero a,
      BitVec.shiftLeft_eq_zero le_rfl⟩
  · exact ⟨rfl, shlOverflow_of_le a hlow.le, rfl, shrOverflow_of_le a hlow.le⟩
  · have hge : 16 ≤ b.toNat := Nat.le_of_not_lt hlow
    exact ⟨BitVec.shiftLeft_eq_zero hge, shlOverflow_of_ge a hge, BitVec.ushiftRight_eq_zero hge, shrOverflow_of_ge a hge⟩
  · have hge : 16 ≤ b.toNat := Nat.le_of_not_lt hlow
    have hout : 16 ≤ b.toNat - 16 := by omega
    rw [shlOverflow_of_ge a hge, shrOverflow_of_ge a hge]
    exact ⟨BitVec.shiftLeft_eq_zero hge, BitVec.shiftLeft_eq_zero hout, BitVec.ushiftRight_eq_zero hge,
      BitVec.ushiftRight_eq_zero hout⟩

/-- Settles O8: eleven fixed words, decoded. -/
theorem specWordsDecodeAsWritten : Obligations.SpecWordsDecodeAsWritten := by
  unfold Obligations.SpecWordsDecodeAsWritten
  decide

/-- Settles O23: the write to a literal slot is dropped (`writeResult_lit`), and the six that write `O` still do
(`writeResultThenO_lit`); DIV writes it after or before the destination, by its divisor. -/
theorem literalDestinationsDiscardTheWrite : Obligations.LiteralDestinationsDiscardTheWrite := by
  intro v ob s x
  have discards {i : Instr} {r : Word} (h : exec i s = .next (writeResult x r)) : exec i s = .next x.state :=
    h.trans (congrArg _ (writeResult_lit v ob s r))
  have setsO {i : Instr} {r ov : Word} (h : exec i s = .next (writeResultThenO x r ov)) :
      exec i s = .next (x.state.setO ov) := h.trans (congrArg _ (writeResultThenO_lit v ob s r ov))
  refine ⟨discards rfl, discards rfl, discards rfl, discards rfl, discards rfl, setsO rfl, setsO rfl, setsO rfl, ?div,
    setsO rfl, setsO rfl⟩
  by_cases hb : x.b = 0
  · rw [if_pos hb]
    exact setsO (exec_div_of_eq_zero hb)
  · rw [if_neg hb]
    exact (exec_div_of_ne_zero hb).trans (congrArg _ (writeOThenResult_lit v ob s _ _))

/-- Settles O24: five of the six write `O` after the destination, so the overflow value stands (`writeResultThenO_ov`); DIV
by a nonzero divisor writes the quotient last (`writeOThenResult_ov`), and by zero both values are 0. -/
theorem overflowRegisterAsDestination : Obligations.OverflowRegisterAsDestination := by
  intro ob s x
  have setsO {i : Instr} {r ov : Word} (h : exec i s = .next (writeResultThenO x r ov)) :
      exec i s = .next (x.state.setO ov) := h.trans (congrArg _ (writeResultThenO_ov ob s r ov))
  refine ⟨setsO rfl, setsO rfl, setsO rfl, setsO rfl, setsO rfl, ?div⟩
  by_cases hb : x.b = 0
  · rw [toNat_word_eq_zero_iff.mpr hb, Nat.div_zero]
    exact setsO (exec_div_of_eq_zero hb)
  · exact (exec_div_of_ne_zero hb).trans (congrArg _ (writeOThenResult_ov ob s _ _))

/-- Settles O39: the default's skip step is `skipStep_eq`, and the other two policies are `skipStepWith_eq`. -/
theorem skipStepAdvancesPastTheInstruction : Obligations.SkipStepAdvancesPastTheInstruction := by
  intro s
  refine ⟨fun hh hs => ?full, skipStepWith_eq .oneWord s, ?none⟩
  case full => rw [step_of_skipping hh hs, skipStep_eq]
  case none =>
    have hpc : s.pc + BitVec.ofNat 16 (skipAdvance .noAdvance (wordAtPc s)) = s.pc := BitVec.add_zero s.pc
    rw [skipStepWith_eq, hpc]

/-- Settles O55: a load writes one word (`State.memWrite_memRead_same`, `State.memWrite_memRead_other`), and a step request
answers as the step does, which goes on exactly when not halted (`stepGoesOnExactlyWhenNotHalted`). -/
theorem blockAnswersItsHost : Obligations.BlockAnswersItsHost := by
  intro b a w
  obtain ⟨hfault, hnext⟩ := stepGoesOnExactlyWhenNotHalted b.machine
  refine ⟨rfl, fun h => serve_load_of_running h a w, fun h => ?load, fun h => serve_step_of_fault (hfault h), fun h => ?step⟩
  case load =>
    exact ⟨_, serve_load_of_not_running h a w, h, State.memWrite_memRead_same _ a w,
      fun c hc => State.memWrite_memRead_other _ a c w hc, rfl⟩
  case step =>
    obtain ⟨s, hs⟩ := hnext h
    exact ⟨s, hs, serve_step_of_next hs⟩

end Sys2Proof.Proofs
end
